-- ==== Sys2Proof/Word.lean ====
section
/-! DEFINITION. The word types of B62C (10_state.md R20, 00_scope.md R7). -/

namespace Sys2Proof

/-- One byte: an entry of DBUF, STAGE, FWD or REV (R20). -/
abbrev Byte := BitVec 8

/-- One 16-bit symbol lane of SYM (R36). -/
abbrev Lane := BitVec 16

/-- One 32-bit bus word; also the width of OPERAND, RESULT, PEND and of a command word (R20, R80). -/
abbrev Word := BitVec 32

/-- A digit value, one base-62 place value: 0 to 61 (R16). -/
abbrev Digit := Fin 62

end Sys2Proof
end

