-- ==== Sys2Proof/Syntax.lean ====
section
/-! DEFINITION. The nine commands of the opcode map (30_encoding.md R84), one constructor per row of
spec/opcode_table.json. The only operand a command word carries is COUNT (R82, R83). -/

namespace Sys2Proof

inductive Instr where
  /-- NOP: no operation (44_control.md R191). -/
  | nop
  /-- ALPHA.DEF: load the default alphabet (40_alphabet.md R102). -/
  | alphaDef
  /-- ALPHA.LOAD n: validate the staged alphabet and commit it (40_alphabet.md R104). -/
  | alphaLoad (n : BitVec 8)
  /-- ALPHA.FWD: the symbol of a digit value (40_alphabet.md R105). -/
  | alphaFwd
  /-- ALPHA.REV: the digit value of a code (40_alphabet.md R106). -/
  | alphaRev
  /-- LEN.ENC: the encoded length of a byte length (41_length.md R133). -/
  | lenEnc
  /-- LEN.BYTE: the byte length of an encoded length, validated (41_length.md R134). -/
  | lenByte
  /-- ENC.BLK k: encode one block of k bytes (42_encode.md R151). -/
  | encBlk (k : BitVec 8)
  /-- DEC.BLK j: decode one block of j symbols (43_decode.md R170). -/
  | decBlk (j : BitVec 8)
  deriving DecidableEq, Repr

end Sys2Proof
end

