-- ==== Sys2Proof/WellFormed.lean ====
section
/-! DEFINITION. Which terms of `Instr` are commands of the block: those whose COUNT lies in its row's range
(30_encoding.md R84). -/

namespace Sys2Proof

/-- COUNT is in the row's range: 0..8 for ENC.BLK, 0..11 for DEC.BLK, 0..255 for ALPHA.LOAD (R82, R84). -/
def Instr.wf : Instr → Bool
  | .nop => true
  | .alphaDef => true
  | .alphaLoad _ => true
  | .alphaFwd => true
  | .alphaRev => true
  | .lenEnc => true
  | .lenByte => true
  | .encBlk k => decide (k.toNat ≤ 8)
  | .decBlk j => decide (j.toNat ≤ 11)

end Sys2Proof
end

