-- ==== Sys2Proof/Decode.lean ====
section
/-! DEFINITION. Decoding a command word (30_encoding.md R85), total over all 2^32 words and rejecting by name, and the
encoder (R80, R84). -/

namespace Sys2Proof

/-- Why a word is ILLEGAL (R85). Every reason gives the same outcome, ECODE = ILLEGAL (R86). -/
inductive Illegal where
  /-- RSV0 (bits 7:4) or RSV1 (bits 31:16) is not 0. -/
  | reservedBits
  /-- OP is 0x7 or 0xA..0xF. -/
  | reservedOp
  /-- COUNT is outside the row's range. -/
  | countRange
  deriving DecidableEq, Repr

/-- OP, bits 3:0 (R80, R81). -/
def opField (w : Word) : BitVec 4 := w.extractLsb' 0 4

/-- RSV0, bits 7:4 (R80). -/
def rsv0Field (w : Word) : BitVec 4 := w.extractLsb' 4 4

/-- COUNT, bits 15:8 (R80, R82). -/
def countField (w : Word) : BitVec 8 := w.extractLsb' 8 8

/-- RSV1, bits 31:16 (R80). -/
def rsv1Field (w : Word) : BitVec 16 := w.extractLsb' 16 16

/-- A command without COUNT is legal only when the COUNT bits are 0 (R85). -/
def withoutCount (w : Word) (i : Instr) : Except Illegal Instr :=
  if countField w = 0 then .ok i else .error .countRange

/-- A command with COUNT is legal only when COUNT is in its range (R85). -/
def withCount (i : Instr) : Except Illegal Instr :=
  if i.wf then .ok i else .error .countRange

/-- The row of the opcode map that OP selects, for a word whose reserved bits are 0 (R84, R85). -/
def decodeOp (w : Word) (op : Nat) : Except Illegal Instr :=
  match op with
  | 0x0 => withoutCount w .nop
  | 0x1 => withoutCount w .alphaDef
  | 0x2 => withCount (.alphaLoad (countField w))
  | 0x3 => withoutCount w .alphaFwd
  | 0x4 => withoutCount w .alphaRev
  | 0x5 => withoutCount w .lenEnc
  | 0x6 => withoutCount w .lenByte
  | 0x8 => withCount (.encBlk (countField w))
  | 0x9 => withCount (.decBlk (countField w))
  | _ => .error .reservedOp

/-- The command a word stands for, or why it stands for none (R85). -/
def decode (w : Word) : Except Illegal Instr :=
  if rsv0Field w ≠ 0 ∨ rsv1Field w ≠ 0 then .error .reservedBits else decodeOp w (opField w).toNat

/-- The OP column of the opcode map (R84). -/
def Instr.opcode : Instr → BitVec 4
  | .nop => 0x0
  | .alphaDef => 0x1
  | .alphaLoad _ => 0x2
  | .alphaFwd => 0x3
  | .alphaRev => 0x4
  | .lenEnc => 0x5
  | .lenByte => 0x6
  | .encBlk _ => 0x8
  | .decBlk _ => 0x9

/-- The COUNT column of the opcode map (R84). -/
def Instr.count : Instr → BitVec 8
  | .alphaLoad n => n
  | .encBlk k => k
  | .decBlk j => j
  | .nop => 0
  | .alphaDef => 0
  | .alphaFwd => 0
  | .alphaRev => 0
  | .lenEnc => 0
  | .lenByte => 0

/-- The command word, from the pattern `0000000000000000 CCCCCCCC 0000 OOOO` of R80. -/
def encode (i : Instr) : Word := 0#16 ++ i.count ++ 0#4 ++ i.opcode

/-- The command in the low 32 bits of `w`, numbered as spec/opcode_table.json numbers them. A command is one 32-bit word
(R88), so nothing may stand above bit 31, and the table's row length `nbits` says nothing more. -/
def decodeTableWord (_nbits w : Nat) : Option Instr :=
  if w < 2 ^ 32 then (decode (BitVec.ofNat 32 w)).toOption else none

end Sys2Proof
end

