-- ==== Sys2Proof/Config.lean ====
section
/-! DEFINITION. What one implementation fixes: the fixed parameters (00_scope.md R7), the open parameter
BASE_ADDR (R8), and the one value the spec leaves open. An `opaque` constant has no value anything can see. -/

namespace Sys2Proof.Config

/-- LEN_MAX, the largest length either length command may return (R7, R130). -/
def lenMax : Nat := 2147483647

/-- INVALID, the marker in a REV entry of a code that is not in the alphabet (R7, R39). -/
def invalid : Byte := 0xFF

/-- The size of the register window in bytes (R7, R60). -/
def windowSize : Nat := 512

/-- Open parameter (R8, P1): which multiple of 512 BASE_ADDR is. -/
opaque baseIndex : Nat

/-- BASE_ADDR, the bus address of offset 0 of the window: an open parameter, a multiple of 512 (R8, R60). -/
def baseAddr : Nat := windowSize * baseIndex

/-- FREE VALUE (log entry 6): does the bus interface give its error response to the n-th aligned word access to an offset that is
not reserved while reset is asserted?  R230 says only that such an access has no effect and that a read returns 0. -/
opaque errorInReset : Nat → Bool

end Sys2Proof.Config
end

