-- ==== Sys2Proof/Machine/Tables.lean ====
section
/-! DEFINITION. The alphabet tables: the default alphabet (10_state.md R45) and the reverse table of a forward table
(40_alphabet.md R101). -/

namespace Sys2Proof.Machine

/-- DEFAULT[d], the default alphabet's symbol of digit value d: '0'..'9', 'A'..'Z', 'a'..'z' (R45). -/
def defaultSymbol (d : Nat) : Byte :=
  if d ≤ 9 then BitVec.ofNat 8 (0x30 + d)
  else if d ≤ 35 then BitVec.ofNat 8 (0x41 + (d - 10))
  else BitVec.ofNat 8 (0x61 + (d - 36))

/-- The default forward table (R45). -/
def defaultFwd : Vector Byte 62 := Vector.ofFn fun d => defaultSymbol d.val

/-- The second loop of buildRev (R101): write the digit values d, d+1, … at the codes of the list. A code above 127 has
no entry, and a valid alphabet holds none. -/
def fillRev : List Byte → Nat → Vector Byte 128 → Vector Byte 128
  | [], _, r => r
  | c :: cs, d, r => fillRev cs (d + 1) (r.setIfInBounds c.toNat (BitVec.ofNat 8 d))

/-- buildRev(F): every entry is the invalid marker, then REV[F[d]] is d for d = 0, …, 61 (R101). -/
def buildRev (f : Vector Byte 62) : Vector Byte 128 :=
  fillRev f.toList 0 (Vector.replicate 128 Config.invalid)

end Sys2Proof.Machine
end

