-- ==== Sys2Proof/Machine/State.lean ====
section
/-! DEFINITION. The state of B62C (10_state.md R20) with its environment, the host (00_scope.md R18), as plain data, and the
state after reset (R44). PARAM is a constant and CMD holds no value (R21, R23), so neither is a field; irq is derived
(R42, Machine/Flags.lean). -/

namespace Sys2Proof.Machine

/-- The error codes of STATUS.ECODE (60_exceptions.md R200). Codes 11..15 are never produced, so they have no name. -/
inductive ErrCode where
  | ok | illegal | cfgLength | cfgZero | cfgNonAscii | cfgDup | symRange | symInvalid | lenInvalid | range | nonCanon
  deriving DecidableEq, Repr

/-- CTRL (R22). Its reserved bits read 0 and ignore writes. -/
structure Ctrl where
  /-- Bit 0: DEC.BLK fails with NONCANON instead of truncating. -/
  strict : Bool
  /-- Bit 1: the irq output follows STATUS.DONE. -/
  ie : Bool
  deriving DecidableEq, Repr

/-- STATUS (R24). ERR is not stored: it always equals ECODE ≠ 0 (R27, `Status.err`). Its reserved bits read 0. -/
structure Status where
  /-- A command is in flight (R25). -/
  busy : Bool
  /-- A command has been committed and not acknowledged (R26). -/
  done : Bool
  /-- A host write was dropped because BUSY was 1; sticky (R28). -/
  werr : Bool
  /-- The last command's decoded value did not fit its bytes (R29). -/
  trunc : Bool
  /-- The error code of the last command (R30). -/
  ecode : ErrCode
  /-- The OP field of the last command (R31). -/
  lastop : BitVec 4
  /-- The index of the offending element of the last command (R32). -/
  eidx : BitVec 8
  deriving DecidableEq, Repr

/-- The address of a host access. -/
inductive BusAddr where
  /-- The bus address BASE_ADDR + offset, as a host program writes it (R89). -/
  | window (offset : Nat)
  /-- An absolute bus address (R60). -/
  | bus (address : Nat)
  deriving DecidableEq, Repr

/-- One turn of the machine: what R18 calls a step of the host or of the block. -/
inductive Turn where
  /-- A host read of `size` bytes (R13, R63, R64). -/
  | hostRead (addr : BusAddr) (size : Nat)
  /-- A host write of `size` bytes (R13, R63, R65). -/
  | hostWrite (addr : BusAddr) (size : Nat) (value : Word)
  /-- The reset input becomes asserted (R230). -/
  | assertReset
  /-- The reset input is released (R232). -/
  | releaseReset
  /-- The block's own step: the completion of the command in flight, if there is one (R192). -/
  | block
  deriving DecidableEq, Repr

/-- What the bus interface answers to a host access that reaches the window (R61, R63). -/
inductive BusResp where
  /-- To a read: whether it is the error response, and the read data. -/
  | read (error : Bool) (data : Word)
  /-- To a write: whether it is the error response. -/
  | write (error : Bool)
  deriving DecidableEq, Repr

/-- The machine. The fields up to `rev` are the block's (R20, R41); the others are the model's own: its environment and the
counter of its free value. -/
structure State where
  /-- CTRL (R22). -/
  ctrl : Ctrl
  /-- STATUS (R24). -/
  status : Status
  /-- PEND, the hidden register that holds the command word in flight (R41). -/
  pend : Word
  /-- OPERAND (R33). -/
  operand : Word
  /-- RESULT (R34). -/
  result : Word
  /-- DBUF[0..7] (R35). -/
  dbuf : Vector Byte 8
  /-- SYM[0..10] (R36). -/
  sym : Vector Lane 11
  /-- STAGE[0..63] (R37). -/
  stage : Vector Byte 64
  /-- FWD[0..61] (R38). -/
  fwd : Vector Byte 62
  /-- REV[0..127] (R39). -/
  rev : Vector Byte 128
  /-- The level of the reset input: it is asserted (R230). -/
  resetLine : Bool
  /-- The turns to come, in the order they are taken (R18, R69). Empty: only the block is left to move. -/
  agenda : List Turn
  /-- The answer to the host's last access; none where the block answered nothing (R63). -/
  resp : Option BusResp
  /-- How many free values have been used (log entry 6). -/
  freeCount : Nat
  deriving DecidableEq, Repr

/-- The block never stops with a fault: every command completes and every error is a reported outcome (R19, R203), so no
reason for one exists. -/
inductive Fault where
  deriving DecidableEq, Repr

/-- Why a step could have no meaning. -/
inductive Refusal where
  /-- Raised by an arm of `exec` whose command has no meaning yet, with the command's mnemonic. Safe. No arm raises it. -/
  | notModelled (mnemonic : String)
  deriving DecidableEq, Repr

/-- The state after reset (R44, R45, R46, R230), with the reset input released and no turn waiting (log entries 2 and 5). -/
def State.reset : State where
  ctrl := { strict := false, ie := false }
  status := { busy := false, done := false, werr := false, trunc := false, ecode := .ok, lastop := 0, eidx := 0 }
  pend := 0
  operand := 0
  result := 0
  dbuf := Vector.replicate 8 0
  sym := Vector.replicate 11 0
  stage := Vector.replicate 64 0
  fwd := defaultFwd
  rev := buildRev defaultFwd
  resetLine := false
  agenda := []
  resp := none
  freeCount := 0

end Sys2Proof.Machine
end

