-- ==== Sys2Proof/Machine/Flags.lean ====
section
/-! DEFINITION. The words of CTRL and STATUS, the bits computed from other state (10_state.md R22, R24, R27, R42), and the
write-one-to-clear rule (R24). -/

namespace Sys2Proof.Machine

/-- The number of an error code (60_exceptions.md R200). -/
def ErrCode.bits : ErrCode → BitVec 4
  | .ok => 0
  | .illegal => 1
  | .cfgLength => 2
  | .cfgZero => 3
  | .cfgNonAscii => 4
  | .cfgDup => 5
  | .symRange => 6
  | .symInvalid => 7
  | .lenInvalid => 8
  | .range => 9
  | .nonCanon => 10

/-- STATUS.ERR = (STATUS.ECODE ≠ 0) (R27). -/
def Status.err (st : Status) : Bool := decide (st.ecode.bits ≠ 0)

/-- STATUS as a host reads it (R24): EIDX 23:16, LASTOP 15:12, ECODE 11:8, TRUNC 4, WERR 3, ERR 2, DONE 1, BUSY 0. -/
def Status.word (st : Status) : Word :=
  0#8 ++ st.eidx ++ st.lastop ++ st.ecode.bits ++ 0#3 ++ BitVec.ofBool st.trunc ++ BitVec.ofBool st.werr ++
    BitVec.ofBool st.err ++ BitVec.ofBool st.done ++ BitVec.ofBool st.busy

/-- A host write to STATUS: writing 1 to bit 1 clears DONE and writing 1 to bit 3 clears WERR; nothing else changes
(R24, R65). -/
def Status.acknowledge (v : Word) (st : Status) : Status :=
  { st with done := st.done && !v.getLsbD 1, werr := st.werr && !v.getLsbD 3 }

/-- CTRL as a host reads it (R22): IE 1, STRICT 0. -/
def Ctrl.word (c : Ctrl) : Word := 0#30 ++ BitVec.ofBool c.ie ++ BitVec.ofBool c.strict

/-- CTRL as a host write leaves it: the reserved bits are ignored (R22, R65). -/
def Ctrl.ofWord (v : Word) : Ctrl := { strict := v.getLsbD 0, ie := v.getLsbD 1 }

/-- The irq output, a level: STATUS.DONE AND CTRL.IE (R42, R205). -/
def State.irq (s : State) : Bool := s.status.done && s.ctrl.ie

/-- PARAM, the constant 0x003E0B08: RADIX 23:16, M 15:8, N 7:0 (R21). -/
def paramWord : Word := 0#8 ++ 62#8 ++ 11#8 ++ 8#8

end Sys2Proof.Machine
end

