-- ==== Sys2Proof/Machine/Operands.lean ====
section
/-! DEFINITION. How a command reads its operands (30_encoding.md R82, R83), the number primitives of 00_scope.md
(R10, R11, R15), and the packing of bytes and lanes into bus words (20_memory.md R62). -/

namespace Sys2Proof.Machine

/-- signed32(v): a word as a two's complement integer (R10, R130). -/
def signed32 (v : Word) : Int := v.toInt

/-- BE(B, k): the big-endian value of the bytes; the first is the most significant (R11). -/
def be : List Byte → Nat
  | [] => 0
  | b :: bs => b.toNat * 256 ^ bs.length + be bs

/-- TO_BE(v, k): the k big-endian bytes of v mod 256^k (R11). -/
def toBE (v k : Nat) : List Byte :=
  (List.range k).map fun i => BitVec.ofNat 8 (v / 256 ^ (k - 1 - i) % 256)

/-- encLen(b) = ceil(11 * b / 8) (R15). -/
def encLen (b : Nat) : Nat := (11 * b + 7) / 8

/-- byteLenRaw(e) = (8 * e) div 11 (R15). -/
def byteLenRaw (e : Nat) : Nat := 8 * e / 11

/-- COUNT as an element count: unsigned, not scaled (R82). -/
def countValue (c : BitVec 8) : Nat := c.toNat

/-- COUNT as the 32-bit length word the length functions take (R82: zero-extended; R171). -/
def countWord (c : BitVec 8) : Word := c.setWidth 32

/-- DBUF[0..k-1], the bytes ENC.BLK k reads (R35, R83). -/
def dataBytes (k : Nat) (s : State) : List Byte := s.dbuf.toList.take k

/-- SYM[0..j-1], the lanes DEC.BLK j reads, as raw 16-bit code units (R36, R83). -/
def symbolLanes (j : Nat) (s : State) : List Lane := s.sym.toList.take j

/-- STAGE[0..61], the bytes ALPHA.LOAD reads (R37, R83). -/
def stagedSymbols (s : State) : Vector Byte 62 := Vector.ofFn fun d => s.stage[d.val]

/-- zext_16: a symbol byte in its 16-bit lane (R152). -/
def laneOf (b : Byte) : Lane := b.setWidth 16

/-- Byte i of a word, bits 8i+7 to 8i: the bus is little-endian (R62, R66). -/
def byteOf (v : Word) (i : Nat) : Byte := v.extractLsb' (8 * i) 8

/-- Halfword i of a word, bits 16i+15 to 16i (R62). -/
def halfOf (v : Word) (i : Nat) : Lane := v.extractLsb' (16 * i) 16

/-- The word at word index w of a byte table: byte i is entry 4w + i. An entry past the end reads 0, as FWDW15's last two
bytes do (R62). -/
def packBytes {n : Nat} (t : Vector Byte n) (w : Nat) : Word :=
  t[4 * w + 3]?.getD 0 ++ t[4 * w + 2]?.getD 0 ++ t[4 * w + 1]?.getD 0 ++ t[4 * w]?.getD 0

/-- The word at word index w of a lane table: halfword i is lane 2w + i. Lane 11 reads 0 (R62). -/
def packLanes {n : Nat} (t : Vector Lane n) (w : Nat) : Word :=
  t[2 * w + 1]?.getD 0 ++ t[2 * w]?.getD 0

/-- Store a word into the four entries of its word index (R62, R65). -/
def storeBytes {n : Nat} (t : Vector Byte n) (w : Nat) (v : Word) : Vector Byte n :=
  (((t.setIfInBounds (4 * w) (byteOf v 0)).setIfInBounds (4 * w + 1) (byteOf v 1)).setIfInBounds
    (4 * w + 2) (byteOf v 2)).setIfInBounds (4 * w + 3) (byteOf v 3)

/-- Store a word into the two lanes of its word index; a lane past the end, which is lane 11, is ignored (R62, R65). -/
def storeLanes {n : Nat} (t : Vector Lane n) (w : Nat) (v : Word) : Vector Lane n :=
  (t.setIfInBounds (2 * w) (halfOf v 0)).setIfInBounds (2 * w + 1) (halfOf v 1)

/-- Write the list at entries d, d+1, … of a buffer; every other entry keeps its value (R151, R174). -/
def storeFrom {α : Type} {n : Nat} : Nat → List α → Vector α n → Vector α n
  | _, [], t => t
  | d, x :: xs, t => storeFrom (d + 1) xs (t.setIfInBounds d x)

end Sys2Proof.Machine
end

