-- ==== Sys2Proof/Machine/Ops.lean ====
section
/-! DEFINITION. The named updates of State, and the operations every command shares: accept (44_control.md R190), the outcome
of a command and its commit (R193), which is also how every error is taken (60_exceptions.md R203), and reset
(70_reset_and_hazards.md R230). -/

namespace Sys2Proof.Machine

/-! ## Updates of one field -/

def State.setCtrl (c : Ctrl) (s : State) : State := { s with ctrl := c }
def State.setStatus (st : Status) (s : State) : State := { s with status := st }
def State.setPend (w : Word) (s : State) : State := { s with pend := w }
def State.setOperand (w : Word) (s : State) : State := { s with operand := w }
def State.setResult (w : Word) (s : State) : State := { s with result := w }
def State.setDbuf (b : Vector Byte 8) (s : State) : State := { s with dbuf := b }
def State.setSym (l : Vector Lane 11) (s : State) : State := { s with sym := l }
def State.setStage (b : Vector Byte 64) (s : State) : State := { s with stage := b }
/-- FWD and REV are only ever written together (R39). -/
def State.setTables (f : Vector Byte 62) (r : Vector Byte 128) (s : State) : State := { s with fwd := f, rev := r }
def State.setResetLine (b : Bool) (s : State) : State := { s with resetLine := b }
def State.setAgenda (a : List Turn) (s : State) : State := { s with agenda := a }
def State.setResp (r : Option BusResp) (s : State) : State := { s with resp := r }
/-- A free value has been used (log entry 6). -/
def State.useFree (s : State) : State := { s with freeCount := s.freeCount + 1 }

/-! ## The outcome of a command -/

/-- The buffer or tables a successful command writes (the last column of R83). -/
inductive Writes where
  | nothing
  /-- FWD, and REV built from it. -/
  | tables (f : Vector Byte 62)
  /-- SYM[0..], as many lanes as the list has. -/
  | symbols (lanes : List Lane)
  /-- DBUF[0..], as many bytes as the list has. -/
  | bytes (data : List Byte)
  deriving DecidableEq, Repr

/-- The outcome success(writes, result, trunc) of R193. -/
structure Success where
  writes : Writes
  result : Word
  trunc : Bool
  deriving DecidableEq, Repr

/-- The outcome error(code, idx, trunc) of R193. -/
structure CmdError where
  code : ErrCode
  idx : BitVec 8
  trunc : Bool
  deriving DecidableEq, Repr

/-- raise E(code, idx): the command stops with this error, TRUNC = 0 (R14). -/
def raise {α : Type} (code : ErrCode) (idx : Nat) : Except CmdError α := .error ⟨code, BitVec.ofNat 8 idx, false⟩

/-- The outcome of an ILLEGAL word: error(ILLEGAL, 0, 0) (R194). -/
def illegalOutcome : Except CmdError Success := raise .illegal 0

/-- The writes of a successful command (R193). -/
def applyWrites (w : Writes) (s : State) : State :=
  match w with
  | .nothing => s
  | .tables f => s.setTables f (buildRev f)
  | .symbols lanes => s.setSym (storeFrom 0 lanes s.sym)
  | .bytes data => s.setDbuf (storeFrom 0 data s.dbuf)

/-- The STATUS fields every commit writes (R193): LASTOP is bits 3:0 of the word in PEND, BUSY becomes 0 and DONE 1, and WERR
keeps its value. -/
def Status.committed (pend : Word) (code : ErrCode) (idx : BitVec 8) (trunc : Bool) (st : Status) : Status :=
  { st with busy := false, done := true, trunc := trunc, ecode := code, lastop := pend.extractLsb' 0 4, eidx := idx }

/-- commit(outcome): the outcome becomes visible in one step. An error writes RESULT = 0 and STATUS, and nothing else
(R193, R203). PEND is not written; it means nothing while BUSY = 0 (R41). -/
def commit (o : Except CmdError Success) (s : State) : State :=
  match o with
  | .ok r =>
    ((applyWrites r.writes s).setResult r.result).setStatus (s.status.committed s.pend .ok 0 r.trunc)
  | .error e => (s.setResult 0).setStatus (s.status.committed s.pend e.code e.idx e.trunc)

/-- accept(w): what a host write of w to CMD does while BUSY = 0 (R190). -/
def accept (w : Word) (s : State) : State :=
  (s.setPend w).setStatus { s.status with busy := true, done := false }

/-- A host write dropped because BUSY = 1: it sets WERR (R240). -/
def dropWrite (s : State) : State := s.setStatus { s.status with werr := true }

/-- Reset: every piece of the block's state takes its reset value in one step (R230), a command in flight is aborted (R231);
the environment stays (log entry 4). -/
def resetBlock (s : State) : State :=
  { State.reset with resetLine := s.resetLine, agenda := s.agenda, resp := s.resp, freeCount := s.freeCount }

end Sys2Proof.Machine
end

