-- ==== Sys2Proof/Machine/Bus.lean ====
section
/-! DEFINITION. The register window (20_memory.md): the register map (R61), the two bus primitives MemRead and MemWrite
(R64, R65), and the bus interface around them (R60, R63, 70_reset_and_hazards.md R230). -/

namespace Sys2Proof.Machine

/-- What stands at an offset of the window; a buffer or table word with its word index (R61, R62). -/
inductive Reg where
  | param | ctrl | cmd | status | operand | result
  | dbufw (w : Nat) | symw (w : Nat) | stagew (w : Nat) | fwdw (w : Nat) | revw (w : Nat)
  | reserved
  deriving DecidableEq, Repr

/-- The register map (R61). Every offset not listed is reserved. -/
def regAt (a : Nat) : Reg :=
  if a = 0x000 then .param
  else if a = 0x004 then .ctrl
  else if a = 0x008 then .cmd
  else if a = 0x00C then .status
  else if a = 0x010 then .operand
  else if a = 0x014 then .result
  else if 0x020 ≤ a ∧ a < 0x028 then .dbufw ((a - 0x020) / 4)
  else if 0x040 ≤ a ∧ a < 0x058 then .symw ((a - 0x040) / 4)
  else if 0x080 ≤ a ∧ a < 0x0C0 then .stagew ((a - 0x080) / 4)
  else if 0x0C0 ≤ a ∧ a < 0x100 then .fwdw ((a - 0x0C0) / 4)
  else if 0x100 ≤ a ∧ a < 0x180 then .revw ((a - 0x100) / 4)
  else .reserved

/-- The word a host reads (R61, R62): CMD and every reserved offset read 0. -/
def readReg (r : Reg) (s : State) : Word :=
  match r with
  | .param => paramWord
  | .ctrl => s.ctrl.word
  | .cmd => 0
  | .status => s.status.word
  | .operand => s.operand
  | .result => s.result
  | .dbufw w => packBytes s.dbuf w
  | .symw w => packLanes s.sym w
  | .stagew w => packBytes s.stage w
  | .fwdw w => packBytes s.fwd w
  | .revw w => packBytes s.rev w
  | .reserved => 0

/-- MemRead(a, 4) (R64). -/
def memRead (a : Nat) (s : State) : Word := readReg (regAt a) s

/-- One byte of the window as a host sees it: byte a mod 4 of the word that holds it (R62). -/
def windowByte (a : Nat) (s : State) : Byte := byteOf (memRead (a - a % 4) s) (a % 4)

/-- A write to a register that takes part in the drop rule: performed when BUSY = 0, else dropped (R65, R240). -/
def whenIdle (s t : State) : State := if s.status.busy then dropWrite s else t

/-- The effect of a host write on what stands at the offset (R65). -/
def writeReg (r : Reg) (v : Word) (s : State) : State :=
  match r with
  | .status => s.setStatus (s.status.acknowledge v)
  | .cmd => whenIdle s (accept v s)
  | .ctrl => whenIdle s (s.setCtrl (Ctrl.ofWord v))
  | .operand => whenIdle s (s.setOperand v)
  | .dbufw w => whenIdle s (s.setDbuf (storeBytes s.dbuf w v))
  | .symw w => whenIdle s (s.setSym (storeLanes s.sym w v))
  | .stagew w => whenIdle s (s.setStage (storeBytes s.stage w v))
  | .param => s
  | .result => s
  | .fwdw _ => s
  | .revw _ => s
  | .reserved => s

/-- MemWrite(a, 4, v) (R65). -/
def memWrite (a : Nat) (v : Word) (s : State) : State := writeReg (regAt a) v s

/-- The offset of a bus address, (bus address - BASE_ADDR); none outside the window (R60, R63). -/
def BusAddr.offset? : BusAddr → Option Nat
  | .window a => if a < Config.windowSize then some a else none
  | .bus a =>
    if Config.baseAddr ≤ a ∧ a < Config.baseAddr + Config.windowSize then some (a - Config.baseAddr) else none

/-- Only 32-bit accesses at multiples of 4 are accepted (R63). -/
def accepted (a size : Nat) : Bool := decide (size = 4 ∧ a % 4 = 0)

/-- The answer to an aligned word access while reset is asserted, which has no effect (R230): OK at a reserved offset (R61). At
every other offset R230 leaves open whether it is the error response, so that bit is a free value (log entry 6). -/
def answerInReset (a : Nat) (answer : Bool → BusResp) (s : State) : State :=
  if regAt a = .reserved then s.setResp (some (answer false))
  else (s.setResp (some (answer (Config.errorInReset s.freeCount)))).useFree

/-- A host read: outside the window it does not reach the block; a read of another size or alignment gets the error response and
returns 0, during reset too (R63); during reset a word read returns 0 (R230). That any other read is answered OK is the model's choice
at the offsets that are not reserved (log entry 11). -/
def hostRead (addr : BusAddr) (size : Nat) (s : State) : State :=
  match addr.offset? with
  | none => s.setResp none
  | some a =>
    if accepted a size then
      if s.resetLine then answerInReset a (.read · 0) s
      else s.setResp (some (.read false (memRead a s)))
    else s.setResp (some (.read true 0))

/-- A host write: outside the window it does not reach the block; a write of another size or alignment gets the error response and
has no effect, during reset too (R63); during reset a word write has no effect (R230). That any other write is answered OK, the one
dropped because BUSY = 1 included, is the model's choice at the offsets that are not reserved (log entry 11). -/
def hostWrite (addr : BusAddr) (size : Nat) (v : Word) (s : State) : State :=
  match addr.offset? with
  | none => s.setResp none
  | some a =>
    if accepted a size then
      if s.resetLine then answerInReset a .write s
      else (memWrite a v s).setResp (some (.write false))
    else s.setResp (some (.write true))

end Sys2Proof.Machine
end

