-- ==== Sys2Proof/Machine/Alphabet.lean ====
section
/-! DEFINITION. The alphabet commands (40_alphabet.md). -/

namespace Sys2Proof.Machine

/-- The loop of validAlphabet from index i on (R100): for one index the zero check, then the range check, then the duplicate
check. `seen` holds the bytes of the indices below i. -/
def checkSymbols : List Byte → Nat → List Byte → Except CmdError Unit
  | _, _, [] => .ok ()
  | seen, i, c :: cs =>
    if c = 0 then raise .cfgZero i
    else if c.toNat > 127 then raise .cfgNonAscii i
    else if c ∈ seen then raise .cfgDup i
    else checkSymbols (c :: seen) (i + 1) cs

/-- validAlphabet(n, S): the length first, then the bytes in index order (R100). -/
def validAlphabet (n : Nat) (symbols : Vector Byte 62) : Except CmdError Unit :=
  if n ≠ 62 then raise .cfgLength 0 else checkSymbols [] 0 symbols.toList

/-- The outcome of ALPHA.DEF (R102). -/
def performAlphaDef : Except CmdError Success := .ok ⟨.tables defaultFwd, 62, false⟩

/-- The outcome of ALPHA.LOAD n (R104). -/
def performAlphaLoad (n : BitVec 8) (s : State) : Except CmdError Success :=
  match validAlphabet (countValue n) (stagedSymbols s) with
  | .error e => .error e
  | .ok () => .ok ⟨.tables (stagedSymbols s), 62, false⟩

/-- The outcome of ALPHA.FWD: FWD[d] zero-extended, or RANGE when the digit is above 61 (R105). -/
def performAlphaFwd (s : State) : Except CmdError Success :=
  if h : s.operand.toNat < 62 then .ok ⟨.nothing, s.fwd[s.operand.toNat].setWidth 32, false⟩ else raise .range 0

/-- The outcome of ALPHA.REV: REV[c] zero-extended, and the invalid marker for a code above 127 (R106). -/
def performAlphaRev (s : State) : Except CmdError Success :=
  if h : s.operand.toNat < 128 then .ok ⟨.nothing, s.rev[s.operand.toNat].setWidth 32, false⟩
  else .ok ⟨.nothing, Config.invalid.setWidth 32, false⟩

def execAlphaDef (s : State) : Host.Outcome State Fault Refusal := .next (commit performAlphaDef s)

def execAlphaLoad (n : BitVec 8) (s : State) : Host.Outcome State Fault Refusal := .next (commit (performAlphaLoad n s) s)

def execAlphaFwd (s : State) : Host.Outcome State Fault Refusal := .next (commit (performAlphaFwd s) s)

def execAlphaRev (s : State) : Host.Outcome State Fault Refusal := .next (commit (performAlphaRev s) s)

end Sys2Proof.Machine
end

