-- ==== Sys2Proof/Machine/Control.lean ====
section
/-! DEFINITION. NOP (44_control.md R191). -/

namespace Sys2Proof.Machine

/-- The outcome of NOP: RESULT becomes 0 and nothing is written (R191). -/
def performNop : Except CmdError Success := .ok ⟨.nothing, 0, false⟩

def execNop (s : State) : Host.Outcome State Fault Refusal := .next (commit performNop s)

end Sys2Proof.Machine
end

