-- ==== Sys2Proof/Machine/Length.lean ====
section
/-! DEFINITION. The length commands (41_length.md). -/

namespace Sys2Proof.Machine

/-- encLenChecked(v) (R131): RANGE when the length is negative or the result would exceed LEN_MAX. -/
def encLenChecked (v : Word) : Except CmdError Nat :=
  if signed32 v < 0 then raise .range 0
  else if encLen (signed32 v).toNat > Config.lenMax then raise .range 0
  else .ok (encLen (signed32 v).toNat)

/-- byteLenChecked(v) (R132): RANGE when the length is negative, LEN_INVALID when no byte count encodes to it. -/
def byteLenChecked (v : Word) : Except CmdError Nat :=
  if signed32 v < 0 then raise .range 0
  else if encLen (byteLenRaw (signed32 v).toNat) ≠ (signed32 v).toNat then raise .lenInvalid 0
  else .ok (byteLenRaw (signed32 v).toNat)

/-- A length function's value as the RESULT of a command that writes nothing else (R133, R134). -/
def lengthOutcome : Except CmdError Nat → Except CmdError Success
  | .ok n => .ok ⟨.nothing, BitVec.ofNat 32 n, false⟩
  | .error e => .error e

def execLenEnc (s : State) : Host.Outcome State Fault Refusal :=
  .next (commit (lengthOutcome (encLenChecked s.operand)) s)

def execLenByte (s : State) : Host.Outcome State Fault Refusal :=
  .next (commit (lengthOutcome (byteLenChecked s.operand)) s)

end Sys2Proof.Machine
end

