-- ==== Sys2Proof/Machine/DecodeBlock.lean ====
section
/-! DEFINITION. The block decoder (43_decode.md). -/

namespace Sys2Proof.Machine

/-- The digit value of the symbol in lane i (R172): the range check comes before the table lookup. -/
def lookupSymbol (rev : Vector Byte 128) (i : Nat) (c : Lane) : Except CmdError Nat :=
  if h : c.toNat < 128 then
    if rev[c.toNat] = Config.invalid then raise .symInvalid i else .ok rev[c.toNat].toNat
  else raise .symRange i

/-- The loop of R170 from lane i on, with the exact accumulator V (R173). -/
def accumulate (rev : Vector Byte 128) : Nat → Nat → List Lane → Except CmdError Nat
  | _, v, [] => .ok v
  | i, v, c :: cs =>
    match lookupSymbol rev i c with
    | .error e => .error e
    | .ok d => accumulate rev (i + 1) (v * 62 + d) cs

/-- What DEC.BLK does with a value v and b output bytes (R174, R175): with STRICT, a value that does not fit fails with
NONCANON and TRUNC = 1; otherwise its low b bytes are written and TRUNC says whether bits were lost. -/
def outputBytes (strict : Bool) (b v : Nat) : Except CmdError Success :=
  if v ≥ 256 ^ b ∧ strict = true then .error ⟨.nonCanon, 0, true⟩
  else .ok ⟨.bytes (toBE (v % 256 ^ b) b), BitVec.ofNat 32 b, decide (v ≥ 256 ^ b)⟩

/-- The outcome of DEC.BLK j (R170): the length check, then the lanes, then the truncation policy. A word with j above 11 is
ILLEGAL (R85), so such a term has that outcome. -/
def performDecBlk (j : BitVec 8) (s : State) : Except CmdError Success :=
  if countValue j ≤ 11 then
    match byteLenChecked (countWord j) with
    | .error e => .error e
    | .ok b =>
      match accumulate s.rev 0 0 (symbolLanes (countValue j) s) with
      | .error e => .error e
      | .ok v => outputBytes s.ctrl.strict b v
  else illegalOutcome

def execDecBlk (j : BitVec 8) (s : State) : Host.Outcome State Fault Refusal := .next (commit (performDecBlk j s) s)

end Sys2Proof.Machine
end

