-- ==== Sys2Proof/Machine/EncodeBlock.lean ====
section
/-! DEFINITION. The block encoder (42_encode.md). -/

namespace Sys2Proof.Machine

/-- The e low base-62 digits of v, most significant first: the division loop of R150, whose remainders fill the positions from
the last to the first. -/
def digits : Nat → Nat → List Digit
  | 0, _ => []
  | e + 1, v => digits e (v / 62) ++ [Fin.ofNat 62 v]

/-- encBlock(B, k, F): the symbols of a block of k bytes (R150). -/
def encBlock (block : List Byte) (f : Vector Byte 62) : List Byte :=
  (digits (encLen block.length) (be block)).map fun d => f[d]

/-- The outcome of ENC.BLK k (R151, R152). A word with k above 8 is ILLEGAL (R85), so such a term has that outcome. -/
def performEncBlk (k : BitVec 8) (s : State) : Except CmdError Success :=
  if countValue k ≤ 8 then
    .ok ⟨.symbols ((encBlock (dataBytes (countValue k) s) s.fwd).map laneOf), BitVec.ofNat 32 (encLen (countValue k)), false⟩
  else illegalOutcome

def execEncBlk (k : BitVec 8) (s : State) : Host.Outcome State Fault Refusal := .next (commit (performEncBlk k s) s)

end Sys2Proof.Machine
end

