-- ==== Sys2Proof/Machine/Dispatch.lean ====
section
/-! DEFINITION. The meaning of every command: perform and commit (44_control.md R192, R193), one arm per constructor. -/

namespace Sys2Proof.Machine

def exec (i : Instr) (s : State) : Host.Outcome State Fault Refusal :=
  match i with
  | .nop => Sys2Proof.Machine.execNop s
  | .alphaDef => Sys2Proof.Machine.execAlphaDef s
  | .alphaLoad n => Sys2Proof.Machine.execAlphaLoad n s
  | .alphaFwd => Sys2Proof.Machine.execAlphaFwd s
  | .alphaRev => Sys2Proof.Machine.execAlphaRev s
  | .lenEnc => Sys2Proof.Machine.execLenEnc s
  | .lenByte => Sys2Proof.Machine.execLenByte s
  | .encBlk k => Sys2Proof.Machine.execEncBlk k s
  | .decBlk j => Sys2Proof.Machine.execDecBlk j s

end Sys2Proof.Machine
end

