-- ==== Sys2Proof/Machine/Lifecycle.lean ====
section
/-! DEFINITION. The turns of the machine (00_scope.md R18): the block's completion step (44_control.md R192), the host's accesses
(20_memory.md R69) and the reset input (70_reset_and_hazards.md R230). -/

namespace Sys2Proof.Machine

/-- complete(): decode the word in PEND, perform it and commit (R192); an ILLEGAL word commits ECODE = ILLEGAL (R86, R194). -/
def complete (s : State) : Host.Outcome State Fault Refusal :=
  match decode s.pend with
  | .ok i => exec i s
  | .error _ => .next (commit illegalOutcome s)

/-- The block's own turn. It completes the command in flight; idle, it does nothing (R192, R212); while reset is asserted, the
state is the reset state (R230). -/
def blockTurn (s : State) : Host.Outcome State Fault Refusal :=
  if s.resetLine then .next (resetBlock s)
  else if s.status.busy then complete s
  else .next s

/-- One turn (R18). Each completes before the next is taken (R69). -/
def takeTurn (t : Turn) (s : State) : Host.Outcome State Fault Refusal :=
  match t with
  | .hostRead addr size => .next (hostRead addr size s)
  | .hostWrite addr size v => .next (hostWrite addr size v s)
  | .assertReset => .next ((resetBlock s).setResetLine true)
  | .releaseReset => .next (s.setResetLine false)
  | .block => blockTurn s

/-- The next turn of the agenda; when it is empty the block moves, so that a command in flight completes (R19, R192). -/
def nextTurn (s : State) : Host.Outcome State Fault Refusal :=
  match s.agenda with
  | [] => blockTurn s
  | t :: rest => takeTurn t (s.setAgenda rest)

/-- The state in which the word `w` has been accepted and the block moves next. -/
def loadCommand (w : Word) (s : State) : State :=
  ((accept w s).setResetLine false).setAgenda (if s.agenda.isEmpty then [] else .block :: s.agenda)

end Sys2Proof.Machine
end

