-- ==== Sys2Proof/Machine/Step.lean ====
section
/-! DEFINITION. One step of the machine: the next turn (00_scope.md R18). -/

namespace Sys2Proof.Machine

/-- One step. It is a function of the state alone: which agent moves next is data of the state, `agenda` (log entry 5). -/
def step (s : State) : Host.Outcome State Fault Refusal := nextTurn s

/-- The block fetches nothing (20_memory.md R71): the command it runs next is the word in PEND. This is `s` right after the
host's accepted write of `w` to CMD (R190), with the reset input released and the block to move next (log entry 7). -/
def State.withFetchWord (s : State) (_nbits w : Nat) : State := loadCommand (BitVec.ofNat 32 w) s

end Sys2Proof.Machine
end

