-- ==== Sys2Proof/Safety.lean ====
section
/-! DEFINITION. The vocabulary of the statements: a valid alphabet and its reverse table (10_state.md R38, R40), the states a
host finds the block in (R25), the state a commit leaves (44_control.md R193), and the values of a block and of a symbol string
as the spec writes them (00_scope.md R11, 43_decode.md R173). -/

namespace Sys2Proof.Machine

/-- A valid alphabet: 62 distinct bytes, each in 1..127 (R38, R100). -/
abbrev ValidAlphabet (f : Vector Byte 62) : Prop :=
  (∀ d : Fin 62, 1 ≤ f[d].toNat ∧ f[d].toNat ≤ 127) ∧ ∀ d e : Fin 62, f[d] = f[e] → d = e

/-- REV is the reverse table of FWD: REV[FWD[d]] = d for every digit value d, and every code that is not among FWD's entries
has the invalid marker 0xFF (R40). -/
abbrev ReverseOf (f : Vector Byte 62) (r : Vector Byte 128) : Prop :=
  (∀ d : Fin 62, r[f[d].toNat]? = some (BitVec.ofNat 8 d.val)) ∧
    ∀ c : Fin 128, (∀ d : Fin 62, f[d].toNat ≠ c.val) → r[c] = 0xFF

/-- The alphabet invariant of the tables a state holds (R38, R40). -/
abbrev State.AlphabetInv (s : State) : Prop := ValidAlphabet s.fwd ∧ ReverseOf s.fwd s.rev

/-- No command is in flight and reset is released. -/
abbrev State.Idle (s : State) : Prop := s.status.busy = false ∧ s.resetLine = false

/-- A command is in flight: accepted and not yet committed (R25). -/
abbrev State.InFlight (s : State) : Prop := s.status.busy = true ∧ s.resetLine = false

/-- The state `s` after a commit that writes RESULT and STATUS and nothing else (R193). -/
def State.afterCommit (s : State) (result : Word) (code : ErrCode) (idx : Nat) (trunc : Bool) : State :=
  { s with
    result := result
    status := { busy := false, done := true, werr := s.status.werr, trunc := trunc, ecode := code,
                lastop := BitVec.ofNat 4 s.pend.toNat, eidx := BitVec.ofNat 8 idx } }

/-- The state after k steps, where each step answers a next state. -/
def runSteps : Nat → State → Option State
  | 0, s => some s
  | k + 1, s =>
    match step s with
    | .next t => runSteps k t
    | .fault _ => none
    | .refused _ => none

/-- The offsets whose writes are dropped while BUSY = 1: CTRL, CMD, OPERAND, DBUF, SYM and STAGE words (R65, R240). -/
abbrev InputOffset (a : Nat) : Prop :=
  a % 4 = 0 ∧ (a = 0x004 ∨ a = 0x008 ∨ a = 0x010 ∨ (0x020 ≤ a ∧ a ≤ 0x024) ∨ (0x040 ≤ a ∧ a ≤ 0x054) ∨
    (0x080 ≤ a ∧ a ≤ 0x0BC))

/-- The reserved offsets of the window, as the register map lists them (R61). -/
abbrev ReservedOffset (a : Nat) : Prop :=
  (0x018 ≤ a ∧ a < 0x020) ∨ (0x028 ≤ a ∧ a < 0x040) ∨ (0x058 ≤ a ∧ a < 0x080) ∨ (0x180 ≤ a ∧ a < 0x200)

/-- A turn that is a host access, not reset and not the block's own. -/
def Turn.isAccess : Turn → Bool
  | .hostRead _ _ => true
  | .hostWrite _ _ _ => true
  | .assertReset => false
  | .releaseReset => false
  | .block => false

/-- The value of DBUF[0..k-1]: the sum of DBUF[i] * 256^(k-1-i) (R11). -/
def blockValue (k : Nat) (s : State) : Nat :=
  ((List.range k).map fun i => (s.dbuf[i]?.getD 0).toNat * 256 ^ (k - 1 - i)).sum

/-- The digit value of the symbol in lane i: REV[SYM[i]] (R172). -/
def laneDigit (i : Nat) (s : State) : Nat := (s.rev[(s.sym[i]?.getD 0).toNat]?.getD 0).toNat

/-- The value of SYM[0..j-1]: the sum of d_i * 62^(j-1-i) (R173). -/
def symbolValue (j : Nat) (s : State) : Nat :=
  ((List.range j).map fun i => laneDigit i s * 62 ^ (j - 1 - i)).sum

/-- The symbol in lane i is a code 0..127 that is in the alphabet (R172). -/
abbrev LaneValid (i : Nat) (s : State) : Prop :=
  (s.sym[i]?.getD 0).toNat ≤ 127 ∧ s.rev[(s.sym[i]?.getD 0).toNat]?.getD 0 ≠ 0xFF

/-- The staged byte at index i passes the three checks of its index (R100). -/
abbrev StageGood (i : Nat) (s : State) : Prop :=
  s.stage[i]?.getD 0 ≠ 0 ∧ (s.stage[i]?.getD 0).toNat ≤ 127 ∧
    ∀ h < i, s.stage[h]?.getD 0 ≠ s.stage[i]?.getD 0

/-- Everything a command's commit decides: all of the block's state but WERR (R192, R193). -/
abbrev SameOutcome (s t : State) : Prop :=
  s.ctrl = t.ctrl ∧ { s.status with werr := t.status.werr } = t.status ∧ s.pend = t.pend ∧ s.operand = t.operand ∧
    s.result = t.result ∧ s.dbuf = t.dbuf ∧ s.sym = t.sym ∧ s.stage = t.stage ∧ s.fwd = t.fwd ∧ s.rev = t.rev ∧
    s.resetLine = t.resetLine

/-- All of the block's state, and the reset input. -/
abbrev SameBlock (s t : State) : Prop :=
  s.ctrl = t.ctrl ∧ s.status = t.status ∧ s.pend = t.pend ∧ s.operand = t.operand ∧ s.result = t.result ∧
    s.dbuf = t.dbuf ∧ s.sym = t.sym ∧ s.stage = t.stage ∧ s.fwd = t.fwd ∧ s.rev = t.rev ∧ s.resetLine = t.resetLine

/-- What STATUS and RESULT say together (R26, R29, R32, R200): an index only for the codes that have one, in that code's range and
from that code's command; TRUNC only after a DEC.BLK; RESULT 0 after an error; never DONE while BUSY. -/
abbrev State.StatusInv (s : State) : Prop :=
  (s.status.busy = true → s.status.done = false) ∧
  (s.status.ecode ≠ .ok → s.result = 0) ∧
  (s.status.ecode = .cfgZero ∨ s.status.ecode = .cfgNonAscii ∨ s.status.ecode = .cfgDup →
    s.status.lastop = 2 ∧ s.status.eidx.toNat ≤ 61) ∧
  (s.status.ecode = .symRange ∨ s.status.ecode = .symInvalid → s.status.lastop = 9 ∧ s.status.eidx.toNat ≤ 10) ∧
  (s.status.ecode = .ok ∨ s.status.ecode = .illegal ∨ s.status.ecode = .cfgLength ∨ s.status.ecode = .lenInvalid ∨
    s.status.ecode = .range ∨ s.status.ecode = .nonCanon → s.status.eidx = 0) ∧
  (s.status.trunc = true → s.status.lastop = 9 ∧ (s.status.ecode = .ok ∨ s.status.ecode = .nonCanon)) ∧
  (s.status.ecode = .nonCanon → s.status.trunc = true) ∧
  (s.status.ecode = .cfgLength → s.status.lastop = 2) ∧
  (s.status.ecode = .lenInvalid → s.status.lastop = 6 ∨ s.status.lastop = 9) ∧
  (s.status.ecode = .range → s.status.lastop = 3 ∨ s.status.lastop = 5 ∨ s.status.lastop = 6)

end Sys2Proof.Machine
end

