-- ==== Sys2Proof/Certificates/Slice0/Obligations.lean ====
section
/-! DEFINITION. The statements for the provers. Each docstring says which rule of spec/ it formalises. -/

open Sys2Proof Sys2Proof.Machine

/-! ## Reset -/

/-- R44, R45, R46 (10_state.md): every register after reset, the two tables as the formulas of R45 and R46, and irq. -/
def Obligations.ResetLeavesTheSpecifiedRegisters : Prop :=
  let s := State.reset
  memRead 0x000 s = 0x003E0B08 ∧ memRead 0x004 s = 0 ∧ memRead 0x00C s = 0 ∧ s.pend = 0 ∧ s.operand = 0 ∧ s.result = 0 ∧
  (∀ i : Fin 8, s.dbuf[i] = 0) ∧ (∀ i : Fin 11, s.sym[i] = 0) ∧ (∀ i : Fin 64, s.stage[i] = 0) ∧
  (∀ d : Fin 62, s.fwd[d].toNat =
    if d.val ≤ 9 then 0x30 + d.val else if d.val ≤ 35 then 0x41 + (d.val - 10) else 0x61 + (d.val - 36)) ∧
  (∀ c : Fin 128, s.rev[c].toNat =
    if 0x30 ≤ c.val ∧ c.val ≤ 0x39 then c.val - 0x30
    else if 0x41 ≤ c.val ∧ c.val ≤ 0x5A then c.val - 0x41 + 10
    else if 0x61 ≤ c.val ∧ c.val ≤ 0x7A then c.val - 0x61 + 36
    else 0xFF) ∧
  s.irq = false

/-- R230, R231, R232 (70_reset_and_hazards.md): when reset becomes asserted, in any state and so also while a command is in flight,
one step leaves the reset state; a turn of the block while reset is asserted leaves the reset state too; and the release of reset
changes nothing but the level of the input. That the environment (agenda, last answer, free-value counter) is as before, and that
the block's turn writes the reset values again, is the model's choice (log entry 4), as is the input's level (log entry 2). -/
def Obligations.AssertedResetLoadsTheResetState : Prop :=
  ∀ (s : State) (rest : List Turn),
    (s.agenda = .assertReset :: rest →
      step s = .next { State.reset with resetLine := true, agenda := rest, resp := s.resp, freeCount := s.freeCount }) ∧
    (s.resetLine = true → (s.agenda = [] ∧ rest = []) ∨ s.agenda = .block :: rest →
      step s = .next { State.reset with resetLine := true, agenda := rest, resp := s.resp, freeCount := s.freeCount }) ∧
    (s.agenda = .releaseReset :: rest → step s = .next { s with resetLine := false, agenda := rest })

/-- R230: host accesses while reset is asserted have no effect, and reads return 0. The response is the error response for another
size or alignment (R63) and OK for a word at a reserved offset (R61); for every other word it is free (log entry 6). -/
def Obligations.AccessesDuringResetHaveNoEffect : Prop :=
  ∀ (s : State) (a : Turn) (rest : List Turn), s.resetLine = true → a.isAccess = true → s.agenda = a :: rest →
    ∃ t, step s = .next t ∧ SameBlock s t ∧ t.agenda = rest ∧
      ∀ addr size off, addr.offset? = some off →
        (a = .hostRead addr size → ∃ e, t.resp = some (.read e 0) ∧
          (size ≠ 4 ∨ off % 4 ≠ 0 → e = true) ∧ (size = 4 → off % 4 = 0 → ReservedOffset off → e = false)) ∧
        (∀ v, a = .hostWrite addr size v → ∃ e, t.resp = some (.write e) ∧
          (size ≠ 4 ∨ off % 4 ≠ 0 → e = true) ∧ (size = 4 → off % 4 = 0 → ReservedOffset off → e = false))

/-! ## Encoding -/

/-- R84 (30_encoding.md): decoding the word of a command gives the command back, with COUNT at every value of its range. -/
def Obligations.DecodeOfEncodeGivesTheCommandBack : Prop :=
  ∀ i : Instr, i.wf = true → decode (encode i) = .ok i

/-- R84, R85: a word that decodes to a command is that command's one encoding, and the command's COUNT is in range. -/
def Obligations.DecodedWordIsTheCommandsEncoding : Prop :=
  ∀ (w : Word) (i : Instr), decode w = .ok i → i.wf = true ∧ encode i = w

/-- R85: the decode function over all words, read off the bits of the word as a number. -/
def Obligations.DecodeFollowsTheOpcodeMap : Prop :=
  ∀ w : Word,
    let op := w.toNat % 16
    let count := w.toNat / 256 % 256
    let reserved := w.toNat / 16 % 16 ≠ 0 ∨ w.toNat / 65536 ≠ 0
    (reserved → ∃ why, decode w = .error why) ∧
    (op = 0x7 ∨ 0xA ≤ op → ∃ why, decode w = .error why) ∧
    (op ≤ 6 → op ≠ 2 → count ≠ 0 → ∃ why, decode w = .error why) ∧
    (op = 0x8 → 8 < count → ∃ why, decode w = .error why) ∧
    (op = 0x9 → 11 < count → ∃ why, decode w = .error why) ∧
    (¬reserved → count = 0 →
      (op = 0x0 → decode w = .ok .nop) ∧ (op = 0x1 → decode w = .ok .alphaDef) ∧ (op = 0x3 → decode w = .ok .alphaFwd) ∧
      (op = 0x4 → decode w = .ok .alphaRev) ∧ (op = 0x5 → decode w = .ok .lenEnc) ∧ (op = 0x6 → decode w = .ok .lenByte)) ∧
    (¬reserved → op = 0x2 → decode w = .ok (.alphaLoad (BitVec.ofNat 8 count))) ∧
    (¬reserved → op = 0x8 → count ≤ 8 → decode w = .ok (.encBlk (BitVec.ofNat 8 count))) ∧
    (¬reserved → op = 0x9 → count ≤ 11 → decode w = .ok (.decBlk (BitVec.ofNat 8 count)))

/-- R84: the example words of the opcode map stand for their commands. -/
def Obligations.ExampleWordsOfTheOpcodeMapDecode : Prop :=
  decode 0x00000808 = .ok (.encBlk 8) ∧ decode 0x00000308 = .ok (.encBlk 3) ∧ decode 0x00000B09 = .ok (.decBlk 11) ∧
    decode 0x00000509 = .ok (.decBlk 5) ∧ decode 0x00003E02 = .ok (.alphaLoad 62) ∧ decode 0x00000000 = .ok .nop ∧
    decode 0x00000001 = .ok .alphaDef ∧ decode 0x00000003 = .ok .alphaFwd ∧ decode 0x00000004 = .ok .alphaRev ∧
    decode 0x00000005 = .ok .lenEnc ∧ decode 0x00000006 = .ok .lenByte

/-! ## The lifecycle of a command -/

/-- R192 (44_control.md), R212 (60_exceptions.md): the block's own step runs the command the word in PEND decodes to, when the turn
is the block's or when no turn is waiting (the turns are the model's, log entry 5). While BUSY = 0 its turn changes nothing. -/
def Obligations.StepRunsTheDecodedCommand : Prop :=
  (∀ (s : State) (i : Instr), s.InFlight → decode s.pend = .ok i →
    (s.agenda = [] → step s = exec i s) ∧
    (∀ rest, s.agenda = .block :: rest → step s = exec i { s with agenda := rest })) ∧
  (∀ s : State, s.Idle →
    (s.agenda = [] → step s = .next s) ∧
    (∀ rest, s.agenda = .block :: rest → step s = .next { s with agenda := rest }))

/-- R190: a host write of a word to CMD while BUSY = 0 sets PEND, BUSY = 1 and DONE = 0, in one step, and nothing else of the
block. Every word is accepted. A CMD write while BUSY = 1 is not an accept. -/
def Obligations.AcceptSetsPendBusyAndDoneOnly : Prop :=
  ∀ (s : State) (addr : BusAddr) (w : Word) (rest : List Turn), s.resetLine = false → addr.offset? = some 0x008 →
    s.agenda = .hostWrite addr 4 w :: rest →
    (s.status.busy = false → ∃ t, step s = .next t ∧
      SameBlock t { s with pend := w, status := { s.status with busy := true, done := false } }) ∧
    (s.status.busy = true → ∃ t, step s = .next t ∧ t.pend = s.pend ∧ t.status.busy = true ∧ t.status.done = s.status.done)

/-- R194, R86, R193: a word in PEND that is no command commits ECODE = ILLEGAL with RESULT, EIDX and TRUNC 0, LASTOP = PEND[3:0],
and changes no buffer, table or other register, when the turn is the block's or when no turn is waiting (the turns are the model's,
log entry 5). -/
def Obligations.IllegalWordCommitsIllegal : Prop :=
  ∀ (s : State) (why : Illegal), s.InFlight → decode s.pend = .error why →
    (s.agenda = [] → step s = .next (s.afterCommit 0 .illegal 0 false)) ∧
    (∀ rest, s.agenda = .block :: rest → step s = .next (({ s with agenda := rest } : State).afterCommit 0 .illegal 0 false))

/-- R193: every command ends its flight: BUSY = 0, DONE = 1, LASTOP = PEND[3:0], and WERR, CTRL, OPERAND, STAGE and PEND are never
written by a commit. -/
def Obligations.EveryCommitEndsTheFlight : Prop :=
  ∀ (i : Instr) (s : State), ∃ t, exec i s = .next t ∧ t.status.busy = false ∧ t.status.done = true ∧
    t.status.lastop = BitVec.ofNat 4 s.pend.toNat ∧ t.status.werr = s.status.werr ∧ t.ctrl = s.ctrl ∧ t.operand = s.operand ∧
    t.stage = s.stage ∧ t.pend = s.pend ∧ t.agenda = s.agenda ∧ t.resp = s.resp ∧ t.resetLine = s.resetLine

/-- R203 (60_exceptions.md): errors are precise. A command that commits an error code leaves the state before it but for RESULT,
which is 0, and STATUS. -/
def Obligations.FailedCommandChangesNoBufferAndNoTable : Prop :=
  ∀ (i : Instr) (s t : State), exec i s = .next t → t.status.ecode ≠ .ok →
    t = s.afterCommit 0 t.status.ecode t.status.eidx.toNat t.status.trunc

/-- R19 (00_scope.md): the block never hangs. A command in flight is over after at most one step more than there are turns
waiting, whatever the turns are (the turns are the model's, log entry 5). -/
def Obligations.CommandInFlightCompletes : Prop :=
  ∀ s : State, s.InFlight → ∃ k t, k ≤ s.agenda.length + 1 ∧ runSteps k s = some t ∧ t.status.busy = false

/-- R192: completion may happen after any number of host accesses, and every such schedule gives the same outcome. The
accesses may be of any kind; only WERR and the host's answers can differ. The schedule is the model's list of turns (log entry 5). -/
def Obligations.OutcomeIsIndependentOfTheSchedule : Prop :=
  ∀ (s : State) (accesses : List Turn), s.InFlight → (∀ a ∈ accesses, a.isAccess = true) →
    ∃ t u, runSteps (accesses.length + 1) { s with agenda := accesses ++ [.block] } = some t ∧
      runSteps 1 { s with agenda := [] } = some u ∧ SameOutcome t u

/-- R25: only accept sets BUSY, and only commit and reset clear it (the turns are the model's, log entry 5). -/
def Obligations.BusyIsSetByAcceptAndClearedByCommitOrReset : Prop :=
  ∀ s t : State, step s = .next t →
    (s.status.busy = false → t.status.busy = true →
      ∃ addr w rest, s.agenda = .hostWrite addr 4 w :: rest ∧ addr.offset? = some 0x008 ∧ s.resetLine = false ∧ t.pend = w) ∧
    (s.status.busy = true → t.status.busy = false →
      (∃ rest, s.agenda = .assertReset :: rest) ∨
      (s.resetLine = true ∧ (s.agenda = [] ∨ ∃ rest, s.agenda = .block :: rest)) ∨
      (s.resetLine = false ∧ (s.agenda = [] ∨ ∃ rest, s.agenda = .block :: rest) ∧ t.status.done = true ∧
        t.status.lastop = BitVec.ofNat 4 s.pend.toNat))

/-! ## Host reads and writes -/

/-- R64: a host read of an aligned word returns that word and changes nothing: no register, no status bit. That the response is OK
is the model's choice at the offsets that are not reserved (log entry 11). -/
def Obligations.ReadReturnsTheWordAndChangesNothing : Prop :=
  ∀ (s : State) (addr : BusAddr) (a : Nat) (rest : List Turn), s.resetLine = false → a % 4 = 0 → addr.offset? = some a →
    s.agenda = .hostRead addr 4 :: rest →
    step s = .next { s with agenda := rest, resp := some (.read false (memRead a s)) }

/-- R63 (20_memory.md): an access of another size or at a misaligned address gets the error response, has no effect, and a read
returns 0, while reset is asserted too; an access outside the window does not reach the block, and the model then holds no answer
(log entry 9). -/
def Obligations.UnsupportedAccessHasNoEffect : Prop :=
  ∀ (s : State) (addr : BusAddr) (size : Nat) (v : Word) (rest : List Turn),
    (∀ a, addr.offset? = some a → size ≠ 4 ∨ a % 4 ≠ 0 →
      (s.agenda = .hostRead addr size :: rest → step s = .next { s with agenda := rest, resp := some (.read true 0) }) ∧
      (s.agenda = .hostWrite addr size v :: rest → step s = .next { s with agenda := rest, resp := some (.write true) })) ∧
    (addr.offset? = none →
      (s.agenda = .hostRead addr size :: rest → step s = .next { s with agenda := rest, resp := none }) ∧
      (s.agenda = .hostWrite addr size v :: rest → step s = .next { s with agenda := rest, resp := none }))

/-- R60: the window is the 512 bytes from BASE_ADDR on, whatever BASE_ADDR is, and BASE_ADDR is a multiple of 512. -/
def Obligations.WindowIsTheBytesFromBaseAddr : Prop :=
  Config.baseAddr % 512 = 0 ∧
  (∀ a : Nat, (BusAddr.bus (Config.baseAddr + a)).offset? = (BusAddr.window a).offset? ∧
    ((BusAddr.window a).offset? = if a ≤ 0x1FF then some a else none)) ∧
  ∀ b : Nat, (∀ a ≤ 0x1FF, b ≠ Config.baseAddr + a) → (BusAddr.bus b).offset? = none

/-- R61, R62: what each word of the window holds. Byte i of a word is in bits 8i+7 to 8i; the slots past the end of SYM and FWD,
CMD and the reserved offsets read 0. -/
def Obligations.WindowWordsFollowTheRegisterMap : Prop :=
  ∀ s : State,
    memRead 0x000 s = 0x003E0B08 ∧ memRead 0x008 s = 0 ∧ memRead 0x010 s = s.operand ∧ memRead 0x014 s = s.result ∧
    (∀ a, a % 4 = 0 → ReservedOffset a → memRead a s = 0) ∧
    (∀ w i, w < 2 → i < 4 → some ((memRead (0x020 + 4 * w) s).extractLsb' (8 * i) 8) = s.dbuf[4 * w + i]?) ∧
    (∀ w i, w < 6 → i < 2 → (memRead (0x040 + 4 * w) s).extractLsb' (16 * i) 16 =
      if h : 2 * w + i < 11 then s.sym[2 * w + i] else 0) ∧
    (∀ w i, w < 16 → i < 4 → some ((memRead (0x080 + 4 * w) s).extractLsb' (8 * i) 8) = s.stage[4 * w + i]?) ∧
    (∀ w i, w < 16 → i < 4 → (memRead (0x0C0 + 4 * w) s).extractLsb' (8 * i) 8 =
      if h : 4 * w + i < 62 then s.fwd[4 * w + i] else 0) ∧
    (∀ w i, w < 32 → i < 4 → some ((memRead (0x100 + 4 * w) s).extractLsb' (8 * i) 8) = s.rev[4 * w + i]?)

/-- R22, R24, R27, R200: the bits of CTRL and STATUS as a host reads them, with ERR = (ECODE ≠ 0) and the numbers of the error
codes. -/
def Obligations.ControlAndStatusBitsReadAsLaidOut : Prop :=
  ∀ s : State,
    let c := memRead 0x004 s
    let w := memRead 0x00C s
    c.getLsbD 0 = s.ctrl.strict ∧ c.getLsbD 1 = s.ctrl.ie ∧ c.toNat < 4 ∧
    w.getLsbD 0 = s.status.busy ∧ w.getLsbD 1 = s.status.done ∧ w.getLsbD 3 = s.status.werr ∧
    w.getLsbD 4 = s.status.trunc ∧ w.extractLsb' 5 3 = 0 ∧ w.extractLsb' 12 4 = s.status.lastop ∧
    w.extractLsb' 16 8 = s.status.eidx ∧ w.extractLsb' 24 8 = 0 ∧
    (w.getLsbD 2 = true ↔ w.extractLsb' 8 4 ≠ 0) ∧
    (w.extractLsb' 8 4).toNat = (match s.status.ecode with
      | .ok => 0 | .illegal => 1 | .cfgLength => 2 | .cfgZero => 3 | .cfgNonAscii => 4 | .cfgDup => 5 | .symRange => 6
      | .symInvalid => 7 | .lenInvalid => 8 | .range => 9 | .nonCanon => 10)

/-- R65: while idle, a host write to an input register other than CMD is what a read of its word then returns (the reserved bits of CTRL
and the reserved lane 11 aside, which read 0), and every other word of the window reads as before. That the response
is OK is the model's choice (log entry 11). -/
def Obligations.IdleWriteStoresItsWordOnly : Prop :=
  ∀ (s : State) (addr : BusAddr) (a : Nat) (v : Word) (rest : List Turn), s.Idle → InputOffset a → a ≠ 0x008 →
    addr.offset? = some a → s.agenda = .hostWrite addr 4 v :: rest →
    ∃ t, step s = .next t ∧
      memRead a t = (if a = 0x004 then v &&& 0x3 else if a = 0x054 then v &&& 0xFFFF else v) ∧
      (∀ b, b % 4 = 0 → b ≠ a → memRead b t = memRead b s) ∧
      t.status = s.status ∧ t.pend = s.pend ∧ t.resetLine = s.resetLine ∧ t.agenda = rest ∧ t.resp = some (.write false)

/-- R240: while BUSY = 1 a host write to CMD, CTRL, OPERAND, DBUF, SYM or STAGE has no effect on its target and sets WERR. That the
response to the dropped write is OK is the model's choice (log entry 11). -/
def Obligations.BusyDropsInputWritesAndSetsWerr : Prop :=
  ∀ (s : State) (addr : BusAddr) (a : Nat) (v : Word) (rest : List Turn), s.InFlight → InputOffset a → addr.offset? = some a →
    s.agenda = .hostWrite addr 4 v :: rest →
    step s = .next { s with
      status := { s.status with werr := true }, agenda := rest, resp := some (.write false) }

/-- R61, R65: a host write to PARAM, RESULT, FWD, REV or a reserved offset has no effect, busy or not. The response is OK at a reserved
offset (R61); that it is OK at PARAM, RESULT, FWD and REV is the model's choice (log entry 11). -/
def Obligations.WritesToReadOnlyOffsetsAreIgnored : Prop :=
  ∀ (s : State) (addr : BusAddr) (a : Nat) (v : Word) (rest : List Turn), s.resetLine = false → a % 4 = 0 →
    addr.offset? = some a → a = 0x000 ∨ a = 0x014 ∨ (0x0C0 ≤ a ∧ a < 0x180) ∨ ReservedOffset a →
    s.agenda = .hostWrite addr 4 v :: rest → step s = .next { s with agenda := rest, resp := some (.write false) }

/-- R24, R65: a host write to STATUS, busy or not, clears DONE where bit 1 is 1 and WERR where bit 3 is 1, and changes no other bit
of STATUS and nothing else. That the response is OK is the model's choice (log entry 11). -/
def Obligations.StatusWriteClearsDoneAndWerrOnly : Prop :=
  ∀ (s : State) (addr : BusAddr) (v : Word) (rest : List Turn), s.resetLine = false → addr.offset? = some 0x00C →
    s.agenda = .hostWrite addr 4 v :: rest →
    ∃ t, step s = .next t ∧
      memRead 0x00C t = memRead 0x00C s &&& ~~~(v &&& 0xA) ∧
      t = { s with status := t.status, agenda := rest, resp := some (.write false) }

/-- R28: a write dropped while BUSY = 1 sets WERR; a STATUS write with bit 3 = 1 and reset clear it; and nothing else changes it,
neither accept nor commit. -/
def Obligations.WerrIsSticky : Prop :=
  ∀ s t : State, step s = .next t →
    (∀ addr a v rest, s.InFlight → s.agenda = .hostWrite addr 4 v :: rest → addr.offset? = some a → InputOffset a →
      t.status.werr = true) ∧
    (∀ addr v rest, s.resetLine = false → s.agenda = .hostWrite addr 4 v :: rest → addr.offset? = some 0x00C →
      v.getLsbD 3 = true → t.status.werr = false) ∧
    (∀ rest, s.agenda = .assertReset :: rest → t.status.werr = false) ∧
    (s.status.werr = true → t.status.werr = false →
      (∃ rest, s.agenda = .assertReset :: rest) ∨ s.resetLine = true ∨
      ∃ addr v rest, s.agenda = .hostWrite addr 4 v :: rest ∧ addr.offset? = some 0x00C ∧ v.getLsbD 3 = true) ∧
    (s.status.werr = false → t.status.werr = true →
      s.InFlight ∧ ∃ addr a v rest, s.agenda = .hostWrite addr 4 v :: rest ∧ addr.offset? = some a ∧ InputOffset a)

/-- R241 (70_reset_and_hazards.md): after accept and before completion, whatever the host accesses, a read of any word but
STATUS returns what it returned before the accept, and STATUS differs only in BUSY = 1, DONE = 0 and WERR. -/
def Obligations.ReadsWhileBusyReturnTheStateAtAccept : Prop :=
  ∀ (s : State) (w : Word) (accesses : List Turn), s.Idle → (∀ a ∈ accesses, a.isAccess = true) →
    ∃ t, runSteps (accesses.length + 1) { s with agenda := .hostWrite (.window 0x008) 4 w :: accesses } = some t ∧
      (∀ a, a % 4 = 0 → a ≠ 0x00C → memRead a t = memRead a s) ∧
      t.status = { s.status with busy := true, done := false, werr := t.status.werr } ∧ t.pend = w

/-- R42, R205: irq = STATUS.DONE AND CTRL.IE, as the host reads the two bits; every command raises it when IE = 1, on success and
on error alike; the next accept and a STATUS write with bit 1 = 1 clear it. -/
def Obligations.IrqFollowsDoneAndIe : Prop :=
  (∀ s : State, s.irq = ((memRead 0x00C s).getLsbD 1 && (memRead 0x004 s).getLsbD 1)) ∧
  (∀ (i : Instr) (s : State), ∃ t, exec i s = .next t ∧ t.irq = s.ctrl.ie) ∧
  (∀ (s : State) (w : Word), s.status.busy = false → (memWrite 0x008 w s).irq = false) ∧
  (∀ (s : State) (v : Word), v.getLsbD 1 = true → (memWrite 0x00C v s).irq = false)

/-! ## Invariants -/

/-- R40: the alphabet invariant holds of the state after reset. -/
def Obligations.ResetHoldsAValidAlphabet : Prop := State.reset.AlphabetInv

/-- R38, R40: every step keeps the alphabet invariant: FWD's entries are distinct and in 1..127, REV[FWD[d]] = d, and every
other entry of REV is 0xFF. -/
def Obligations.StepKeepsTheAlphabetInvariant : Prop :=
  ∀ s t : State, s.AlphabetInv → step s = .next t → t.AlphabetInv

/-- R40: in every state that a run from reset reaches, whatever turns are taken, REV[FWD[d]] = d, every code that is not among
FWD's entries has 0xFF, REV[0] = 0xFF, and exactly 66 entries of REV are 0xFF. -/
def Obligations.ReachableStatesHoldAValidAlphabet : Prop :=
  ∀ (turns : List Turn) (k : Nat) (t : State), runSteps k { State.reset with agenda := turns } = some t →
    t.AlphabetInv ∧ t.rev[(0 : Fin 128)] = 0xFF ∧ t.rev.toList.count 0xFF = 66

/-- R103: the tables are changed only by the commit of ALPHA.DEF or of a successful ALPHA.LOAD, and by reset. -/
def Obligations.TablesChangeOnlyByLoadOrReset : Prop :=
  ∀ s t : State, step s = .next t → t.fwd ≠ s.fwd ∨ t.rev ≠ s.rev →
    (∃ rest, s.agenda = .assertReset :: rest) ∨ s.resetLine = true ∨
    (s.InFlight ∧ t.status.ecode = .ok ∧ (decode s.pend = .ok .alphaDef ∨ ∃ n, decode s.pend = .ok (.alphaLoad n)))

/-- R26, R29, R32, R200: STATUS and RESULT after reset fit together. -/
def Obligations.ResetStatusFitsTogether : Prop := State.reset.StatusInv

/-- R26, R29, R32, R200: every step keeps what STATUS and RESULT say fitting together: EIDX is 0 but for the five codes that have
an index, which lies in range and comes from the command that raises the code; TRUNC = 1 only after a DEC.BLK that succeeded or failed with
NONCANON; RESULT is 0 after an error; DONE is 0 while BUSY. -/
def Obligations.StepKeepsStatusFittingTogether : Prop :=
  ∀ s t : State, s.StatusInv → step s = .next t → t.StatusInv

/-! ## NOP and the alphabet commands -/

/-- R191: NOP commits OK with RESULT, EIDX, TRUNC 0 and changes nothing else; in particular it does not clear WERR. -/
def Obligations.NopCommitsOkAndZero : Prop :=
  ∀ s : State, exec .nop s = .next (s.afterCommit 0 .ok 0 false)

/-- R102: ALPHA.DEF loads the default alphabet, its reverse table and RESULT = 62, and changes nothing else. -/
def Obligations.AlphaDefLoadsTheDefaultAlphabet : Prop :=
  ∀ s : State, ∃ t, exec .alphaDef s = .next t ∧
    { t with fwd := s.fwd, rev := s.rev } = s.afterCommit 62 .ok 0 false ∧
    t.fwd = State.reset.fwd ∧ t.rev = State.reset.rev

/-- R104: ALPHA.LOAD 62 of a valid staged alphabet makes it FWD, makes REV its reverse table, gives RESULT = 62, and changes nothing
else. -/
def Obligations.AlphaLoadCommitsAValidAlphabet : Prop :=
  ∀ s : State, (∀ i < 62, StageGood i s) →
    ∃ t, exec (.alphaLoad 62) s = .next t ∧
      { t with fwd := s.fwd, rev := s.rev } = s.afterCommit 62 .ok 0 false ∧
      (∀ d : Fin 62, t.fwd[d] = s.stage[d.val]) ∧ ReverseOf t.fwd t.rev

/-- R100, R104, R202: ALPHA.LOAD of another length fails with CFG_LENGTH; of 62 bytes it fails at the first index with a zero
byte, a byte above 127 or a byte equal to an earlier one, in that order, and reports that index. A failure changes only
RESULT and STATUS. -/
def Obligations.AlphaLoadReportsTheFirstFault : Prop :=
  (∀ (n : BitVec 8) (s : State), n ≠ 62 → exec (.alphaLoad n) s = .next (s.afterCommit 0 .cfgLength 0 false)) ∧
  (∀ (s : State) (i : Nat), i < 62 → (∀ h < i, StageGood h s) → ¬StageGood i s →
    exec (.alphaLoad 62) s = .next (s.afterCommit 0
      (if s.stage[i]?.getD 0 = 0 then .cfgZero else if (s.stage[i]?.getD 0).toNat > 127 then .cfgNonAscii else .cfgDup)
      i false))

/-- R101: of a valid forward table, buildRev gives the reverse table. -/
def Obligations.BuildRevInvertsAValidAlphabet : Prop :=
  ∀ f : Vector Byte 62, ValidAlphabet f → ReverseOf f (buildRev f)

/-- R105: ALPHA.FWD gives FWD[d] zero-extended for d in 0..61, and RANGE for every other OPERAND. -/
def Obligations.AlphaFwdLooksUpTheSymbol : Prop :=
  ∀ s : State,
    (∀ d : Fin 62, s.operand.toNat = d.val → exec .alphaFwd s = .next (s.afterCommit (s.fwd[d].setWidth 32) .ok 0 false)) ∧
    (61 < s.operand.toNat → exec .alphaFwd s = .next (s.afterCommit 0 .range 0 false))

/-- R106: ALPHA.REV gives REV[c] zero-extended for c in 0..127, and the invalid marker 0xFF, without an error, for every other
OPERAND. -/
def Obligations.AlphaRevLooksUpTheDigit : Prop :=
  ∀ s : State,
    (∀ c : Fin 128, s.operand.toNat = c.val → exec .alphaRev s = .next (s.afterCommit (s.rev[c].setWidth 32) .ok 0 false)) ∧
    (127 < s.operand.toNat → exec .alphaRev s = .next (s.afterCommit 0xFF .ok 0 false))

/-! ## The length commands -/

/-- R131, R133: LEN.ENC of a byte length b in 0..1561806288 gives the least e with 8e ≥ 11b; every other OPERAND, a negative one
included, gives RANGE. -/
def Obligations.LenEncRoundsUpElevenEighths : Prop :=
  ∀ s : State,
    (∀ e : Nat, s.operand.toNat ≤ 1561806288 → 11 * s.operand.toNat ≤ 8 * e → 8 * e < 11 * s.operand.toNat + 8 →
      exec .lenEnc s = .next (s.afterCommit (BitVec.ofNat 32 e) .ok 0 false)) ∧
    (1561806288 < s.operand.toNat → exec .lenEnc s = .next (s.afterCommit 0 .range 0 false))

/-- R132, R134, R135: LEN.BYTE of e = 11q + r gives 8q + t(r) with t the table of R135, LEN_INVALID when r is 1, 4 or 8, and
RANGE when the OPERAND is negative; and encLen(8q + k) = 11q + encLen(k) with encLen(0..8) as listed. -/
def Obligations.LenByteInvertsValidLengths : Prop :=
  (∀ s : State,
    (0x80000000 ≤ s.operand.toNat → exec .lenByte s = .next (s.afterCommit 0 .range 0 false)) ∧
    (∀ q r : Nat, s.operand.toNat < 0x80000000 → s.operand.toNat = 11 * q + r →
      (r = 1 ∨ r = 4 ∨ r = 8 → exec .lenByte s = .next (s.afterCommit 0 .lenInvalid 0 false)) ∧
      (∀ t, (r, t) ∈ [(0, 0), (2, 1), (3, 2), (5, 3), (6, 4), (7, 5), (9, 6), (10, 7)] →
        exec .lenByte s = .next (s.afterCommit (BitVec.ofNat 32 (8 * q + t)) .ok 0 false)))) ∧
  (∀ q k : Nat, k ≤ 7 → encLen (8 * q + k) = 11 * q + encLen k) ∧
  (List.range 9).map encLen = [0, 2, 3, 5, 6, 7, 9, 10, 11]

/-- R136: LEN.BYTE gives back the byte length that LEN.ENC encoded, for every byte length 0..1561806288; LEN.ENC gives back the
encoded length that LEN.BYTE accepted; encLen is strictly increasing. -/
def Obligations.LengthCommandsInvertEachOther : Prop :=
  (∀ s : State, s.operand.toNat ≤ 1561806288 → ∃ t, exec .lenEnc s = .next t ∧ t.status.ecode = .ok ∧
    exec .lenByte { t with operand := t.result } =
      .next (({ t with operand := t.result } : State).afterCommit s.operand .ok 0 false)) ∧
  (∀ s t : State, exec .lenByte s = .next t → t.status.ecode = .ok →
    exec .lenEnc { t with operand := t.result } =
      .next (({ t with operand := t.result } : State).afterCommit s.operand .ok 0 false)) ∧
  (∀ b c : Nat, b < c → encLen b < encLen c)

/-! ## The block encoder -/

/-- R137: the symbol count of a block of k bytes; the byte count of a block of j symbols, defined for the nine valid counts only;
and that the symbol count is the smallest that holds every value of k bytes. -/
def Obligations.SymbolCountsAreTheSmallest : Prop :=
  (List.range 9).map encLen = [0, 2, 3, 5, 6, 7, 9, 10, 11] ∧
  (∀ k : Fin 9, byteLenChecked (BitVec.ofNat 32 (encLen k.val)) = .ok k.val) ∧
  (∀ j : Fin 12, j.val ∉ [0, 2, 3, 5, 6, 7, 9, 10, 11] → byteLenChecked (BitVec.ofNat 32 j.val) = raise .lenInvalid 0) ∧
  ∀ k : Fin 9, 256 ^ k.val ≤ 62 ^ encLen k.val ∧ (1 ≤ k.val → 62 ^ (encLen k.val - 1) < 256 ^ k.val)

/-- R150, R151, R152: ENC.BLK k, for every k in 0..8 and every block, writes the digits of the block's big-endian value, most
significant first, through FWD and zero-extended into lanes 0..encLen(k)-1, gives RESULT = encLen(k), and changes nothing else: the other
lanes and DBUF keep their values. -/
def Obligations.EncBlkWritesTheDigitsOfTheValue : Prop :=
  ∀ (k : BitVec 8) (s : State), k.toNat ≤ 8 →
    ∃ t, exec (.encBlk k) s = .next t ∧
      { t with sym := s.sym } = s.afterCommit (BitVec.ofNat 32 (encLen k.toNat)) .ok 0 false ∧
      ∀ p : Fin 11, t.sym[p] =
        if p.val < encLen k.toNat then
          (s.fwd[Fin.ofNat 62 (blockValue k.toNat s / 62 ^ (encLen k.toNat - 1 - p.val))]).setWidth 16
        else s.sym[p]

/-- R153: no value is lost. The value of a block of k bytes is below 256^k ≤ 62^encLen(k), so the division loop ends with 0; the
digit string the encoder forms of it has exactly encLen(k) digits, leading zeros included, and is the base-62 representation of the
value; and its digit p is the one whose symbol ENC.BLK k writes to lane p. -/
def Obligations.EncoderLosesNoValue : Prop :=
  ∀ (k : BitVec 8) (s : State), k.toNat ≤ 8 →
    let v := be (dataBytes k.toNat s)
    let e := encLen k.toNat
    let T := digits e v
    v = blockValue k.toNat s ∧ v < 256 ^ k.toNat ∧ 256 ^ k.toNat ≤ 62 ^ e ∧ v < 2 ^ 64 ∧ v / 62 ^ e = 0 ∧
    T.length = e ∧ ((List.range e).map fun p => (T[p]?.getD 0).val * 62 ^ (e - 1 - p)).sum = v ∧
    ∃ t, exec (.encBlk k) s = .next t ∧ ∀ p : Fin 11, p.val < e → t.sym[p] = (s.fwd[T[p.val]?.getD 0]).setWidth 16

/-- R154: the lanes ENC.BLK k writes depend on DBUF[0..k-1] and FWD only. -/
def Obligations.EncBlkDependsOnItsBlockAndFwdOnly : Prop :=
  ∀ (k : BitVec 8) (s s' : State), k.toNat ≤ 8 → s.fwd = s'.fwd → (∀ i < k.toNat, s.dbuf[i]? = s'.dbuf[i]?) →
    ∃ t t', exec (.encBlk k) s = .next t ∧ exec (.encBlk k) s' = .next t' ∧ t.result = t'.result ∧ t.status.ecode = t'.status.ecode ∧
      ∀ p : Fin 11, p.val < encLen k.toNat → t.sym[p] = t'.sym[p]

/-- R154 (conflict C1): incrementing the last byte of a block changes exactly the last n + 1 symbols, where n is the number of trailing
digits 61 of the old value, and n is at most 7 and below encLen(k). -/
def Obligations.IncrementChangesTheTrailingSymbols : Prop :=
  ∀ (k : BitVec 8) (s s' : State) (n : Nat), s.AlphabetInv → s'.fwd = s.fwd → 1 ≤ k.toNat → k.toNat ≤ 8 →
    (∀ i, i + 1 < k.toNat → s'.dbuf[i]? = s.dbuf[i]?) →
    (s.dbuf[k.toNat - 1]?.getD 0).toNat < 255 →
    s'.dbuf[k.toNat - 1]? = some (s.dbuf[k.toNat - 1]?.getD 0 + 1) →
    blockValue k.toNat s % 62 ^ n = 62 ^ n - 1 → blockValue k.toNat s % 62 ^ (n + 1) ≠ 62 ^ (n + 1) - 1 →
    n < encLen k.toNat ∧ n ≤ 7 ∧
    ∃ t t', exec (.encBlk k) s = .next t ∧ exec (.encBlk k) s' = .next t' ∧
      ∀ p : Fin 11, p.val < encLen k.toNat → (t.sym[p] ≠ t'.sym[p] ↔ encLen k.toNat ≤ p.val + n + 1)

/-- R155 (conflict C2): two alphabets give the same symbols for a block exactly when they agree on every digit value that
occurs in its digit string. -/
def Obligations.AlphabetsAgreeExactlyOnTheDigitsUsed : Prop :=
  ∀ (k : BitVec 8) (s s' : State), k.toNat ≤ 8 → s'.dbuf = s.dbuf →
    ∃ t t', exec (.encBlk k) s = .next t ∧ exec (.encBlk k) s' = .next t' ∧
      ((∀ p : Fin 11, p.val < encLen k.toNat → t.sym[p] = t'.sym[p]) ↔
        ∀ p < encLen k.toNat, ∀ d : Fin 62, d.val = blockValue k.toNat s / 62 ^ p % 62 → s.fwd[d] = s'.fwd[d])

/-! ## The block decoder -/

/-- R170, R171, R173, R174, R175: DEC.BLK j, with j = encLen(b), valid symbols in lanes 0..j-1, and a value that fits b bytes or
STRICT = 0, writes the low b bytes of the value big-endian into DBUF[0..b-1], gives RESULT = b, commits TRUNC = 1 exactly when the value did
not fit, and changes nothing else. -/
def Obligations.DecBlkWritesTheBytesOfTheValue : Prop :=
  ∀ (j : BitVec 8) (b : Nat) (s : State), b ≤ 8 → j.toNat = (11 * b + 7) / 8 → (∀ i < j.toNat, LaneValid i s) →
    symbolValue j.toNat s < 256 ^ b ∨ s.ctrl.strict = false →
    ∃ t, exec (.decBlk j) s = .next t ∧
      { t with dbuf := s.dbuf } =
        s.afterCommit (BitVec.ofNat 32 b) .ok 0 (decide (256 ^ b ≤ symbolValue j.toNat s)) ∧
      ∀ i : Fin 8, t.dbuf[i] =
        if i.val < b then BitVec.ofNat 8 (symbolValue j.toNat s % 256 ^ b / 256 ^ (b - 1 - i.val)) else s.dbuf[i]

/-- R175: with STRICT = 1, a value that does not fit fails with NONCANON, TRUNC = 1, RESULT = 0, and writes no byte. -/
def Obligations.StrictDecodeFailsWithNonCanon : Prop :=
  ∀ (j : BitVec 8) (b : Nat) (s : State), b ≤ 8 → j.toNat = (11 * b + 7) / 8 → (∀ i < j.toNat, LaneValid i s) →
    256 ^ b ≤ symbolValue j.toNat s → s.ctrl.strict = true →
    exec (.decBlk j) s = .next (s.afterCommit 0 .nonCanon 0 true)

/-- R171: DEC.BLK of 1, 4 or 8 symbols fails with LEN_INVALID, whatever the lanes hold. -/
def Obligations.DecBlkRejectsInvalidLengths : Prop :=
  ∀ (j : BitVec 8) (s : State), j = 1 ∨ j = 4 ∨ j = 8 →
    exec (.decBlk j) s = .next (s.afterCommit 0 .lenInvalid 0 false)

/-- R172, R202: DEC.BLK of a valid length fails at the first lane that is above 127 (SYM_RANGE, the whole 16-bit lane counts) or whose
code is not in the alphabet (SYM_INVALID), reports that lane, and changes only RESULT and STATUS. -/
def Obligations.DecBlkReportsTheFirstBadSymbol : Prop :=
  ∀ (j : BitVec 8) (b i : Nat) (s : State), b ≤ 8 → j.toNat = (11 * b + 7) / 8 → i < j.toNat →
    (∀ h < i, LaneValid h s) → ¬LaneValid i s →
    exec (.decBlk j) s = .next (s.afterCommit 0
      (if (s.sym[i]?.getD 0).toNat > 127 then .symRange else .symInvalid) i false)

/-- R177: the round trip. After ENC.BLK k, DEC.BLK encLen(k) of the symbols written gives the block back, under the same tables, either
STRICT value, and whatever else the host wrote in between. -/
def Obligations.DecodeOfEncodedBlockGivesTheBlockBack : Prop :=
  ∀ (k j : BitVec 8) (s t u : State), s.AlphabetInv → k.toNat ≤ 8 → j.toNat = encLen k.toNat → exec (.encBlk k) s = .next t →
    u.rev = t.rev → (∀ p : Fin 11, p.val < j.toNat → u.sym[p] = t.sym[p]) →
    ∃ w, exec (.decBlk j) u = .next w ∧ w.status.ecode = .ok ∧ w.status.trunc = false ∧ w.result.toNat = k.toNat ∧
      ∀ i : Fin 8, w.dbuf[i] = if i.val < k.toNat then s.dbuf[i] else u.dbuf[i]

/-- R178: DEC.BLK j, for a valid length j = encLen(k), commits OK with TRUNC = 0 exactly on the strings that ENC.BLK k produces from
some block under the same alphabet; two blocks with the same string agree on their k bytes; every other string of valid symbols
has TRUNC = 1; and with STRICT = 1 the block accepts exactly the encoder's outputs. -/
def Obligations.StrictDecodeAcceptsExactlyEncoderOutputs : Prop :=
  ∀ (j k : BitVec 8) (s : State), s.AlphabetInv → k.toNat ≤ 8 → j.toNat = encLen k.toNat →
    let encodes (block : Vector Byte 8) : Prop :=
      ∃ t, exec (.encBlk k) { s with dbuf := block } = .next t ∧ ∀ p : Fin 11, p.val < j.toNat → t.sym[p] = s.sym[p]
    ((∃ t, exec (.decBlk j) s = .next t ∧ t.status.ecode = .ok ∧ t.status.trunc = false) ↔ ∃ block, encodes block) ∧
    (∀ block block', encodes block → encodes block' → ∀ i < k.toNat, block[i]? = block'[i]?) ∧
    ((∀ i < j.toNat, LaneValid i s) → (¬∃ block, encodes block) →
      ∃ t, exec (.decBlk j) s = .next t ∧ t.status.trunc = true) ∧
    (s.ctrl.strict = true →
      ((∃ t, exec (.decBlk j) s = .next t ∧ t.status.ecode = .ok) ↔ ∃ block, encodes block))

/-! ## Frames over the window, byte by byte -/

/-- R35 to R39, R193: NOP, ALPHA.FWD, ALPHA.REV, LEN.ENC and LEN.BYTE store nothing: every byte of the window but those of STATUS and
RESULT reads as before, and PEND, the reset input and the environment are unchanged. -/
def Obligations.ScalarCommandsStoreNothing : Prop :=
  ∀ (i : Instr) (s : State), i = .nop ∨ i = .alphaFwd ∨ i = .alphaRev ∨ i = .lenEnc ∨ i = .lenByte →
    ∃ t, exec i s = .next t ∧ t = { s with result := t.result, status := t.status } ∧ t.status.werr = s.status.werr ∧
      ∀ a, ¬(0x00C ≤ a ∧ a < 0x010) → ¬(0x014 ≤ a ∧ a < 0x018) → windowByte a t = windowByte a s

/-- R103, R193: ALPHA.DEF and ALPHA.LOAD store to the FWD and REV words only: every other byte of the window but those of
STATUS and RESULT reads as before. -/
def Obligations.AlphabetLoadsStoreToTheTablesOnly : Prop :=
  ∀ (i : Instr) (s : State), i = .alphaDef ∨ (∃ n, i = .alphaLoad n) →
    ∃ t, exec i s = .next t ∧ t = { s with result := t.result, status := t.status, fwd := t.fwd, rev := t.rev } ∧
      t.status.werr = s.status.werr ∧
      ∀ a, ¬(0x00C ≤ a ∧ a < 0x010) → ¬(0x014 ≤ a ∧ a < 0x018) → ¬(0x0C0 ≤ a ∧ a < 0x180) → windowByte a t = windowByte a s

/-- R36, R151: ENC.BLK k stores to the 2 * encLen(k) bytes from offset 0x040 on: every other byte of the window but those of STATUS and
RESULT reads as before. -/
def Obligations.EncBlkStoresToItsLanesOnly : Prop :=
  ∀ (k : BitVec 8) (s : State), k.toNat ≤ 8 →
    ∃ t, exec (.encBlk k) s = .next t ∧ t = { s with result := t.result, status := t.status, sym := t.sym } ∧
      t.status.werr = s.status.werr ∧
      ∀ a, ¬(0x00C ≤ a ∧ a < 0x010) → ¬(0x014 ≤ a ∧ a < 0x018) → ¬(0x040 ≤ a ∧ a < 0x040 + 2 * encLen k.toNat) →
        windowByte a t = windowByte a s

/-- R35, R174: DEC.BLK j stores to DBUF[0..b-1] only, the b bytes from offset 0x020 on, and to none on an error: every other byte of the
window but those of STATUS and RESULT reads as before. -/
def Obligations.DecBlkStoresToItsBytesOnly : Prop :=
  ∀ (j : BitVec 8) (b : Nat) (s : State), b ≤ 8 → j.toNat = (11 * b + 7) / 8 →
    ∃ t, exec (.decBlk j) s = .next t ∧ t = { s with result := t.result, status := t.status, dbuf := t.dbuf } ∧
      t.status.werr = s.status.werr ∧
      ∀ a, ¬(0x00C ≤ a ∧ a < 0x010) → ¬(0x014 ≤ a ∧ a < 0x018) →
        ¬(t.status.ecode = .ok ∧ 0x020 ≤ a ∧ a < 0x020 + b) → windowByte a t = windowByte a s
end

