-- ==== Sys2Proof/Laws/Numbers.lean ====
section
/-! SUPPORT. Positional values, digit strings, big-endian bytes, and the length functions on numbers. -/

namespace Sys2Proof.Machine

/-- The positional value of a list of digits in base r, the first most significant. -/
def positional (r : Nat) : List Nat → Nat
  | [] => 0
  | d :: ds => d * r ^ ds.length + positional r ds

theorem positional_eq_sum (r : Nat) (l : List Nat) :
    positional r l = ((List.range l.length).map fun i => (l[i]?.getD 0) * r ^ (l.length - 1 - i)).sum := by
  induction l with
  | nil => rfl
  | cons d ds ih =>
    rw [positional, ih, List.length_cons, List.range_succ_eq_map, List.map_cons, List.sum_cons, List.map_map]
    congr 1
    congr 1
    apply List.map_congr_left
    intro i hi
    simp only [Function.comp, List.getElem?_cons_succ]
    congr 2; omega

theorem positional_append (r : Nat) (l l' : List Nat) :
    positional r (l ++ l') = positional r l * r ^ l'.length + positional r l' := by
  induction l with
  | nil => simp [positional]
  | cons d ds ih => simp only [List.cons_append, positional, ih, List.length_append, pow_add]; ring

theorem positional_lt (r : Nat) (l : List Nat) (h : ∀ d ∈ l, d < r) : positional r l < r ^ l.length := by
  induction l with
  | nil => simp [positional]
  | cons d ds ih =>
    have := ih fun x hx => h x (List.mem_cons_of_mem _ hx)
    have hd := h d List.mem_cons_self
    rw [positional, List.length_cons, pow_succ]
    calc d * r ^ ds.length + positional r ds < d * r ^ ds.length + r ^ ds.length := by omega
      _ = (d + 1) * r ^ ds.length := by ring
      _ ≤ r * r ^ ds.length := Nat.mul_le_mul_right _ hd
      _ = _ := by ring

/-- The digit at position p of a positional value. -/
theorem positional_digit (r : Nat) (l : List Nat) (h : ∀ d ∈ l, d < r) (p : Nat) (hp : p < l.length) :
    positional r l / r ^ (l.length - 1 - p) % r = l[p] := by
  induction l generalizing p with
  | nil => simp at hp
  | cons d ds ih =>
    have hl := positional_lt r ds fun x hx => h x (List.mem_cons_of_mem _ hx)
    have hd := h d List.mem_cons_self
    have hr : 0 < r := by omega
    cases p with
    | zero =>
      simp only [positional, List.length_cons, Nat.add_sub_cancel, Nat.sub_zero, List.getElem_cons_zero]
      rw [Nat.add_comm, Nat.add_mul_div_right _ _ (Nat.pow_pos hr), Nat.div_eq_of_lt hl, Nat.zero_add, Nat.mod_eq_of_lt hd]
    | succ p =>
      have hp' : p < ds.length := by simpa using hp
      simp only [positional, List.length_cons, List.getElem_cons_succ]
      rw [← ih (fun x hx => h x (List.mem_cons_of_mem _ hx)) p hp']
      rw [show ds.length + 1 - 1 - (p + 1) = ds.length - 1 - p by omega]
      have e : r ^ ds.length = r ^ (ds.length - 1 - p) * (r * r ^ p) := by
        rw [← pow_succ', ← pow_add]; congr 1; omega
      rw [show d * r ^ ds.length + positional r ds = positional r ds + r ^ (ds.length - 1 - p) * (r * (r ^ p * d)) by rw [e]; ring]
      rw [Nat.add_mul_div_left _ _ (Nat.pow_pos hr), Nat.add_mul_mod_self_left]

theorem positional_range (r n v : Nat) : positional r ((List.range n).map fun i => v / r ^ (n - 1 - i) % r) = v % r ^ n := by
  induction n generalizing v with
  | zero => simp [positional, Nat.mod_one]
  | succ n ih =>
    rw [List.range_succ, List.map_append, positional_append]
    have e : ((List.range n).map fun i => v / r ^ (n + 1 - 1 - i) % r) =
        (List.range n).map fun i => v / r / r ^ (n - 1 - i) % r := by
      apply List.map_congr_left
      intro i hi
      have hi : i < n := by simpa using hi
      rw [Nat.div_div_eq_div_mul, ← pow_succ']; congr 3; omega
    rw [e, ih]
    simp only [List.map_cons, List.map_nil, List.length_cons, List.length_nil, positional]
    rw [pow_succ' r n, Nat.mod_mul]; simp; ring

theorem be_eq_positional (l : List Byte) : be l = positional 256 (l.map BitVec.toNat) := by
  induction l with
  | nil => rfl
  | cons b bs ih => simp [be, positional, ih]

theorem be_lt (l : List Byte) : be l < 256 ^ l.length := by
  have := positional_lt 256 (l.map BitVec.toNat) (by
    intro d hd; obtain ⟨b, _, rfl⟩ := List.mem_map.1 hd; exact b.isLt)
  rwa [← be_eq_positional, List.length_map] at this

theorem digits_length (e v : Nat) : (digits e v).length = e := by
  induction e generalizing v with
  | zero => rfl
  | succ e ih => simp [digits, ih]

/-- The digit at position p. -/
theorem digits_get (e v p : Nat) (hp : p < e) :
    (digits e v)[p]'(by rw [digits_length]; exact hp) = Fin.ofNat 62 (v / 62 ^ (e - 1 - p)) := by
  induction e generalizing v with
  | zero => omega
  | succ e ih =>
    simp only [digits]
    by_cases h : p < e
    · rw [List.getElem_append_left (by rw [digits_length]; exact h), ih _ h, Nat.div_div_eq_div_mul, ← pow_succ']
      congr 3; omega
    · have : p = e := by omega
      subst this
      rw [List.getElem_append_right (by rw [digits_length])]
      simp

theorem positional_digits (e v : Nat) : positional 62 ((digits e v).map Fin.val) = v % 62 ^ e := by
  induction e generalizing v with
  | zero => simp [digits, positional, Nat.mod_one]
  | succ e ih =>
    rw [digits, List.map_append, positional_append, ih]
    simp only [List.map_cons, List.map_nil, List.length_cons, List.length_nil, positional]
    rw [pow_succ' 62 e, Nat.mod_mul]
    simp [Fin.ofNat]; omega

/-- A stored list stands at its indices; every other entry is as before. -/
theorem storeFrom_get {α : Type} {n : Nat} (d : Nat) (l : List α) (t : Vector α n) (i : Nat) (hi : i < n) :
    (storeFrom d l t)[i] = if h : d ≤ i ∧ i < d + l.length then l[i - d]'(by omega) else t[i] := by
  induction l generalizing d t with
  | nil => rw [dif_neg (by simp only [List.length_nil]; omega)]; rfl
  | cons x xs ih =>
    rw [storeFrom, ih]
    by_cases h : d + 1 ≤ i ∧ i < d + 1 + xs.length
    · rw [dif_pos h, dif_pos (by simp; omega)]
      have : i - d = (i - (d+1)) + 1 := by omega
      simp only [this, List.getElem_cons_succ]
    · rw [dif_neg h]
      by_cases h2 : i = d
      · subst h2; rw [dif_pos (by simp)]; simp
      · rw [dif_neg (by simp; omega), Vector.getElem_setIfInBounds_ne _ (Ne.symm h2)]

theorem toBE_length (v k : Nat) : (toBE v k).length = k := by simp [toBE]

theorem toBE_get (v k i : Nat) (h : i < k) :
    (toBE v k)[i]'(by simpa [toBE] using h) = BitVec.ofNat 8 (v / 256 ^ (k - 1 - i)) := by
  simp only [toBE, List.getElem_map, List.getElem_range]
  apply BitVec.eq_of_toNat_eq; simp

theorem signed_nonneg {v : Word} (h : v.toNat < 2^31) : signed32 v = v.toNat := by
  unfold signed32; rw [BitVec.toInt_eq_toNat_cond, if_pos (by omega)]

theorem signed_neg {v : Word} (h : 2^31 ≤ v.toNat) : signed32 v < 0 := by
  unfold signed32; rw [BitVec.toInt_eq_toNat_cond, if_neg (by omega)]; have := v.isLt; omega

theorem byteLenRaw_encLen (b : Nat) : 8 * ((11 * b + 7) / 8) / 11 = b := by
  obtain ⟨q, k, hk, rfl⟩ : ∃ q k, k < 8 ∧ b = 8 * q + k := ⟨b / 8, b % 8, Nat.mod_lt _ (by decide), by omega⟩
  interval_cases k <;> omega

/-- LEN.ENC's function on the word as a number (R131). -/
theorem encLenChecked_eq (v : Word) :
    encLenChecked v = if v.toNat ≤ 1561806288 then .ok ((11 * v.toNat + 7) / 8) else raise .range 0 := by
  unfold encLenChecked
  by_cases h : v.toNat < 2^31
  · rw [signed_nonneg h, if_neg (by omega)]; simp only [Int.toNat_natCast, encLen, Config.lenMax]
    by_cases h2 : v.toNat ≤ 1561806288
    · rw [if_pos h2]; exact if_neg (by omega)
    · rw [if_neg h2]; exact if_pos (by omega)
  · rw [if_pos (signed_neg (by omega)), if_neg (by omega)]

/-- LEN.BYTE's function on the word as a number (R132). -/
theorem byteLenChecked_eq (v : Word) :
    byteLenChecked v = if 2^31 ≤ v.toNat then raise .range 0
      else if (11 * (8 * v.toNat / 11) + 7) / 8 ≠ v.toNat then raise .lenInvalid 0
      else .ok (8 * v.toNat / 11) := by
  unfold byteLenChecked
  by_cases h : v.toNat < 2^31
  · rw [signed_nonneg h, if_neg (by omega), if_neg (show ¬ 2^31 ≤ v.toNat by omega)]; rfl
  · rw [if_pos (signed_neg (by omega)), if_pos (by omega)]

theorem countWord_toNat (j : BitVec 8) : (countWord j).toNat = j.toNat := by
  have := j.isLt; simp [countWord]; omega

end Sys2Proof.Machine
end

