-- ==== Sys2Proof/Laws/Blocks.lean ====
section
/-! SUPPORT. The operands of the block commands as lists, and the decoder's loop. -/

namespace Sys2Proof.Machine

theorem dataBytes_length {k} (s : State) (h : k ≤ 8) : (dataBytes k s).length = k := by simp [dataBytes, h]

theorem dataBytes_get {k i} (s : State) (h : k ≤ 8) (hi : i < k) : (dataBytes k s)[i]? = s.dbuf[i]? := by
  simp [dataBytes, show i < 8 by omega, hi]

theorem blockValue_eq {k} (s : State) (h : k ≤ 8) : blockValue k s = be (dataBytes k s) := by
  rw [be_eq_positional, positional_eq_sum, blockValue]
  simp only [List.length_map, dataBytes_length s h]
  congr 1; apply List.map_congr_left
  intro i hi
  have hi : i < k := by simpa using hi
  rw [List.getElem?_map, dataBytes_get s h hi]
  simp [show i < 8 by omega]

theorem blockValue_congr {m : Nat} {s u : State} (h : ∀ i < m, u.dbuf[i]? = s.dbuf[i]?) :
    blockValue m u = blockValue m s := by
  unfold blockValue; congr 1; apply List.map_congr_left
  intro i hi; rw [h i (by simpa using hi)]

theorem blockValue_succ (m : Nat) (u : State) : blockValue (m+1) u = 256 * blockValue m u + (u.dbuf[m]?.getD 0).toNat := by
  unfold blockValue
  rw [List.range_succ, List.map_append, List.sum_append, ← List.sum_map_mul_left]
  simp only [Nat.add_sub_cancel, List.map_cons, List.map_nil, List.sum_cons, List.sum_nil, Nat.sub_self, pow_zero, Nat.mul_one, Nat.add_zero]
  congr 2; apply List.map_congr_left
  intro i hi
  have : i < m := by simpa using hi
  rw [show m - i = (m - 1 - i) + 1 by omega, pow_succ]; ring

theorem symbolLanes_length {j} (s : State) (h : j ≤ 11) : (symbolLanes j s).length = j := by simp [symbolLanes, h]

theorem symbolLanes_get {j i} (s : State) (h : j ≤ 11) (hi : i < j) : (symbolLanes j s)[i]? = s.sym[i]? := by
  simp [symbolLanes, show i < 11 by omega, hi]

theorem symbolLanes_getElem {j i} (s : State) (h : j ≤ 11) (hi : i < j) :
    (symbolLanes j s)[i]'(by rw [symbolLanes_length s h]; exact hi) = s.sym[i]?.getD 0 := by
  have := symbolLanes_get s h hi
  rw [List.getElem?_eq_getElem (by rw [symbolLanes_length s h]; exact hi)] at this
  rw [← this]; rfl

/-- The digit value a lane stands for. -/
def digitOf (rev : Vector Byte 128) (c : Lane) : Nat := (rev[c.toNat]?.getD 0).toNat

/-- A lane with a code 0..127 that is in the alphabet. -/
abbrev GoodLane (rev : Vector Byte 128) (c : Lane) : Prop := c.toNat ≤ 127 ∧ rev[c.toNat]?.getD 0 ≠ 0xFF

theorem symbolValue_eq {j} (s : State) (h : j ≤ 11) :
    symbolValue j s = positional 62 ((symbolLanes j s).map (digitOf s.rev)) := by
  rw [positional_eq_sum, symbolValue]
  simp only [List.length_map, symbolLanes_length s h]
  congr 1; apply List.map_congr_left
  intro i hi
  have hi : i < j := by simpa using hi
  rw [List.getElem?_map, symbolLanes_get s h hi, laneDigit]
  simp [show i < 11 by omega, digitOf]

theorem lookupSymbol_good {rev : Vector Byte 128} {c : Lane} (h : GoodLane rev c) (i : Nat) :
    lookupSymbol rev i c = .ok (digitOf rev c) := by
  obtain ⟨h1, h2⟩ := h
  unfold lookupSymbol digitOf
  have hc : c.toNat < 128 := by omega
  rw [dif_pos hc]
  simp only [Vector.getElem?_eq_getElem hc, Option.getD_some] at h2 ⊢
  exact if_neg h2

theorem lookupSymbol_bad {rev : Vector Byte 128} {c : Lane} (h : ¬GoodLane rev c) (i : Nat) :
    lookupSymbol rev i c = raise (if c.toNat > 127 then .symRange else .symInvalid) i := by
  unfold lookupSymbol
  by_cases hc : c.toNat < 128
  · rw [dif_pos hc]
    simp only [GoodLane, Vector.getElem?_eq_getElem hc, Option.getD_some, not_and, not_not] at h
    exact (if_pos (h (by omega))).trans (by rw [if_neg (show ¬ c.toNat > 127 by omega)])
  · rw [dif_neg hc, if_pos (show c.toNat > 127 by omega)]

/-- The decoder's loop on good lanes gives their positional value (R173). -/
theorem accumulate_good {rev : Vector Byte 128} {l : List Lane} (h : ∀ c ∈ l, GoodLane rev c) (i v : Nat) :
    accumulate rev i v l = .ok (v * 62 ^ l.length + positional 62 (l.map (digitOf rev))) := by
  induction l generalizing i v with
  | nil => simp [accumulate, positional]
  | cons c cs ih =>
    rw [accumulate, lookupSymbol_good (h c List.mem_cons_self)]
    simp only
    rw [ih fun x hx => h x (List.mem_cons_of_mem _ hx)]
    simp only [List.map_cons, positional, List.length_cons, List.length_map, pow_succ]; congr 1; ring

/-- The decoder's loop stops at the first lane that is not good (R172). -/
theorem accumulate_bad {rev : Vector Byte 128} {l : List Lane} (p : Nat) (hp : p < l.length)
    (h : ∀ q (hq : q < p), GoodLane rev l[q]) (hb : ¬GoodLane rev l[p]) (i v : Nat) :
    accumulate rev i v l = raise (if l[p].toNat > 127 then .symRange else .symInvalid) (i + p) := by
  induction l generalizing i v p with
  | nil => simp at hp
  | cons c cs ih =>
    rw [accumulate]
    cases p with
    | zero => rw [lookupSymbol_bad (c := c) hb]; rfl
    | succ p =>
      rw [lookupSymbol_good (c := c) (h 0 (by omega))]
      simp only [List.getElem_cons_succ]
      rw [ih p (by simpa using hp) (fun q hq => h (q+1) (by omega)) hb]
      congr 1; omega

/-- What an error of the decoder's loop carries. -/
theorem accumulate_error {rev i v l e} (h : accumulate rev i v l = .error e) :
    ∃ j, i ≤ j ∧ j < i + l.length ∧ e.idx = BitVec.ofNat 8 j ∧ e.trunc = false ∧ (e.code = .symRange ∨
    e.code = .symInvalid) := by
  induction l generalizing i v with
  | nil => cases h
  | cons c cs ih =>
    unfold accumulate at h
    split at h
    · rename_i e' he; cases h
      unfold lookupSymbol at he
      split at he
      · split at he
        · cases he; exact ⟨i, by simp⟩
        · cases he
      · cases he; exact ⟨i, by simp⟩
    · obtain ⟨j, a, b, c⟩ := ih h
      exact ⟨j, by omega, by simp; omega, c⟩

theorem byteLenChecked_encLen {j : BitVec 8} {b : Nat} (hb : b ≤ 8) (hj : j.toNat = (11 * b + 7) / 8) :
    byteLenChecked (countWord j) = .ok b := by
  rw [byteLenChecked_eq, countWord_toNat, hj, if_neg (by omega), byteLenRaw_encLen, if_neg (by omega)]

end Sys2Proof.Machine
end

