-- ==== Sys2Proof/Laws/State.lean ====
section
/-! SUPPORT. One lemma per field per named update of State: the updated field has the new value, every other is as before. -/

namespace Sys2Proof.Machine.State

variable (s : State)

@[simp] theorem setCtrl_ctrl (c : Ctrl) : (s.setCtrl c).ctrl = c := rfl
@[simp] theorem setCtrl_status (c : Ctrl) : (s.setCtrl c).status = s.status := rfl
@[simp] theorem setCtrl_pend (c : Ctrl) : (s.setCtrl c).pend = s.pend := rfl
@[simp] theorem setCtrl_operand (c : Ctrl) : (s.setCtrl c).operand = s.operand := rfl
@[simp] theorem setCtrl_result (c : Ctrl) : (s.setCtrl c).result = s.result := rfl
@[simp] theorem setCtrl_dbuf (c : Ctrl) : (s.setCtrl c).dbuf = s.dbuf := rfl
@[simp] theorem setCtrl_sym (c : Ctrl) : (s.setCtrl c).sym = s.sym := rfl
@[simp] theorem setCtrl_stage (c : Ctrl) : (s.setCtrl c).stage = s.stage := rfl
@[simp] theorem setCtrl_fwd (c : Ctrl) : (s.setCtrl c).fwd = s.fwd := rfl
@[simp] theorem setCtrl_rev (c : Ctrl) : (s.setCtrl c).rev = s.rev := rfl
@[simp] theorem setCtrl_resetLine (c : Ctrl) : (s.setCtrl c).resetLine = s.resetLine := rfl
@[simp] theorem setCtrl_agenda (c : Ctrl) : (s.setCtrl c).agenda = s.agenda := rfl
@[simp] theorem setCtrl_resp (c : Ctrl) : (s.setCtrl c).resp = s.resp := rfl
@[simp] theorem setCtrl_freeCount (c : Ctrl) : (s.setCtrl c).freeCount = s.freeCount := rfl

@[simp] theorem setStatus_ctrl (st : Status) : (s.setStatus st).ctrl = s.ctrl := rfl
@[simp] theorem setStatus_status (st : Status) : (s.setStatus st).status = st := rfl
@[simp] theorem setStatus_pend (st : Status) : (s.setStatus st).pend = s.pend := rfl
@[simp] theorem setStatus_operand (st : Status) : (s.setStatus st).operand = s.operand := rfl
@[simp] theorem setStatus_result (st : Status) : (s.setStatus st).result = s.result := rfl
@[simp] theorem setStatus_dbuf (st : Status) : (s.setStatus st).dbuf = s.dbuf := rfl
@[simp] theorem setStatus_sym (st : Status) : (s.setStatus st).sym = s.sym := rfl
@[simp] theorem setStatus_stage (st : Status) : (s.setStatus st).stage = s.stage := rfl
@[simp] theorem setStatus_fwd (st : Status) : (s.setStatus st).fwd = s.fwd := rfl
@[simp] theorem setStatus_rev (st : Status) : (s.setStatus st).rev = s.rev := rfl
@[simp] theorem setStatus_resetLine (st : Status) : (s.setStatus st).resetLine = s.resetLine := rfl
@[simp] theorem setStatus_agenda (st : Status) : (s.setStatus st).agenda = s.agenda := rfl
@[simp] theorem setStatus_resp (st : Status) : (s.setStatus st).resp = s.resp := rfl
@[simp] theorem setStatus_freeCount (st : Status) : (s.setStatus st).freeCount = s.freeCount := rfl

@[simp] theorem setPend_ctrl (w : Word) : (s.setPend w).ctrl = s.ctrl := rfl
@[simp] theorem setPend_status (w : Word) : (s.setPend w).status = s.status := rfl
@[simp] theorem setPend_pend (w : Word) : (s.setPend w).pend = w := rfl
@[simp] theorem setPend_operand (w : Word) : (s.setPend w).operand = s.operand := rfl
@[simp] theorem setPend_result (w : Word) : (s.setPend w).result = s.result := rfl
@[simp] theorem setPend_dbuf (w : Word) : (s.setPend w).dbuf = s.dbuf := rfl
@[simp] theorem setPend_sym (w : Word) : (s.setPend w).sym = s.sym := rfl
@[simp] theorem setPend_stage (w : Word) : (s.setPend w).stage = s.stage := rfl
@[simp] theorem setPend_fwd (w : Word) : (s.setPend w).fwd = s.fwd := rfl
@[simp] theorem setPend_rev (w : Word) : (s.setPend w).rev = s.rev := rfl
@[simp] theorem setPend_resetLine (w : Word) : (s.setPend w).resetLine = s.resetLine := rfl
@[simp] theorem setPend_agenda (w : Word) : (s.setPend w).agenda = s.agenda := rfl
@[simp] theorem setPend_resp (w : Word) : (s.setPend w).resp = s.resp := rfl
@[simp] theorem setPend_freeCount (w : Word) : (s.setPend w).freeCount = s.freeCount := rfl

@[simp] theorem setOperand_ctrl (w : Word) : (s.setOperand w).ctrl = s.ctrl := rfl
@[simp] theorem setOperand_status (w : Word) : (s.setOperand w).status = s.status := rfl
@[simp] theorem setOperand_pend (w : Word) : (s.setOperand w).pend = s.pend := rfl
@[simp] theorem setOperand_operand (w : Word) : (s.setOperand w).operand = w := rfl
@[simp] theorem setOperand_result (w : Word) : (s.setOperand w).result = s.result := rfl
@[simp] theorem setOperand_dbuf (w : Word) : (s.setOperand w).dbuf = s.dbuf := rfl
@[simp] theorem setOperand_sym (w : Word) : (s.setOperand w).sym = s.sym := rfl
@[simp] theorem setOperand_stage (w : Word) : (s.setOperand w).stage = s.stage := rfl
@[simp] theorem setOperand_fwd (w : Word) : (s.setOperand w).fwd = s.fwd := rfl
@[simp] theorem setOperand_rev (w : Word) : (s.setOperand w).rev = s.rev := rfl
@[simp] theorem setOperand_resetLine (w : Word) : (s.setOperand w).resetLine = s.resetLine := rfl
@[simp] theorem setOperand_agenda (w : Word) : (s.setOperand w).agenda = s.agenda := rfl
@[simp] theorem setOperand_resp (w : Word) : (s.setOperand w).resp = s.resp := rfl
@[simp] theorem setOperand_freeCount (w : Word) : (s.setOperand w).freeCount = s.freeCount := rfl

@[simp] theorem setResult_ctrl (w : Word) : (s.setResult w).ctrl = s.ctrl := rfl
@[simp] theorem setResult_status (w : Word) : (s.setResult w).status = s.status := rfl
@[simp] theorem setResult_pend (w : Word) : (s.setResult w).pend = s.pend := rfl
@[simp] theorem setResult_operand (w : Word) : (s.setResult w).operand = s.operand := rfl
@[simp] theorem setResult_result (w : Word) : (s.setResult w).result = w := rfl
@[simp] theorem setResult_dbuf (w : Word) : (s.setResult w).dbuf = s.dbuf := rfl
@[simp] theorem setResult_sym (w : Word) : (s.setResult w).sym = s.sym := rfl
@[simp] theorem setResult_stage (w : Word) : (s.setResult w).stage = s.stage := rfl
@[simp] theorem setResult_fwd (w : Word) : (s.setResult w).fwd = s.fwd := rfl
@[simp] theorem setResult_rev (w : Word) : (s.setResult w).rev = s.rev := rfl
@[simp] theorem setResult_resetLine (w : Word) : (s.setResult w).resetLine = s.resetLine := rfl
@[simp] theorem setResult_agenda (w : Word) : (s.setResult w).agenda = s.agenda := rfl
@[simp] theorem setResult_resp (w : Word) : (s.setResult w).resp = s.resp := rfl
@[simp] theorem setResult_freeCount (w : Word) : (s.setResult w).freeCount = s.freeCount := rfl

@[simp] theorem setDbuf_ctrl (b : Vector Byte 8) : (s.setDbuf b).ctrl = s.ctrl := rfl
@[simp] theorem setDbuf_status (b : Vector Byte 8) : (s.setDbuf b).status = s.status := rfl
@[simp] theorem setDbuf_pend (b : Vector Byte 8) : (s.setDbuf b).pend = s.pend := rfl
@[simp] theorem setDbuf_operand (b : Vector Byte 8) : (s.setDbuf b).operand = s.operand := rfl
@[simp] theorem setDbuf_result (b : Vector Byte 8) : (s.setDbuf b).result = s.result := rfl
@[simp] theorem setDbuf_dbuf (b : Vector Byte 8) : (s.setDbuf b).dbuf = b := rfl
@[simp] theorem setDbuf_sym (b : Vector Byte 8) : (s.setDbuf b).sym = s.sym := rfl
@[simp] theorem setDbuf_stage (b : Vector Byte 8) : (s.setDbuf b).stage = s.stage := rfl
@[simp] theorem setDbuf_fwd (b : Vector Byte 8) : (s.setDbuf b).fwd = s.fwd := rfl
@[simp] theorem setDbuf_rev (b : Vector Byte 8) : (s.setDbuf b).rev = s.rev := rfl
@[simp] theorem setDbuf_resetLine (b : Vector Byte 8) : (s.setDbuf b).resetLine = s.resetLine := rfl
@[simp] theorem setDbuf_agenda (b : Vector Byte 8) : (s.setDbuf b).agenda = s.agenda := rfl
@[simp] theorem setDbuf_resp (b : Vector Byte 8) : (s.setDbuf b).resp = s.resp := rfl
@[simp] theorem setDbuf_freeCount (b : Vector Byte 8) : (s.setDbuf b).freeCount = s.freeCount := rfl

@[simp] theorem setSym_ctrl (l : Vector Lane 11) : (s.setSym l).ctrl = s.ctrl := rfl
@[simp] theorem setSym_status (l : Vector Lane 11) : (s.setSym l).status = s.status := rfl
@[simp] theorem setSym_pend (l : Vector Lane 11) : (s.setSym l).pend = s.pend := rfl
@[simp] theorem setSym_operand (l : Vector Lane 11) : (s.setSym l).operand = s.operand := rfl
@[simp] theorem setSym_result (l : Vector Lane 11) : (s.setSym l).result = s.result := rfl
@[simp] theorem setSym_dbuf (l : Vector Lane 11) : (s.setSym l).dbuf = s.dbuf := rfl
@[simp] theorem setSym_sym (l : Vector Lane 11) : (s.setSym l).sym = l := rfl
@[simp] theorem setSym_stage (l : Vector Lane 11) : (s.setSym l).stage = s.stage := rfl
@[simp] theorem setSym_fwd (l : Vector Lane 11) : (s.setSym l).fwd = s.fwd := rfl
@[simp] theorem setSym_rev (l : Vector Lane 11) : (s.setSym l).rev = s.rev := rfl
@[simp] theorem setSym_resetLine (l : Vector Lane 11) : (s.setSym l).resetLine = s.resetLine := rfl
@[simp] theorem setSym_agenda (l : Vector Lane 11) : (s.setSym l).agenda = s.agenda := rfl
@[simp] theorem setSym_resp (l : Vector Lane 11) : (s.setSym l).resp = s.resp := rfl
@[simp] theorem setSym_freeCount (l : Vector Lane 11) : (s.setSym l).freeCount = s.freeCount := rfl

@[simp] theorem setStage_ctrl (b : Vector Byte 64) : (s.setStage b).ctrl = s.ctrl := rfl
@[simp] theorem setStage_status (b : Vector Byte 64) : (s.setStage b).status = s.status := rfl
@[simp] theorem setStage_pend (b : Vector Byte 64) : (s.setStage b).pend = s.pend := rfl
@[simp] theorem setStage_operand (b : Vector Byte 64) : (s.setStage b).operand = s.operand := rfl
@[simp] theorem setStage_result (b : Vector Byte 64) : (s.setStage b).result = s.result := rfl
@[simp] theorem setStage_dbuf (b : Vector Byte 64) : (s.setStage b).dbuf = s.dbuf := rfl
@[simp] theorem setStage_sym (b : Vector Byte 64) : (s.setStage b).sym = s.sym := rfl
@[simp] theorem setStage_stage (b : Vector Byte 64) : (s.setStage b).stage = b := rfl
@[simp] theorem setStage_fwd (b : Vector Byte 64) : (s.setStage b).fwd = s.fwd := rfl
@[simp] theorem setStage_rev (b : Vector Byte 64) : (s.setStage b).rev = s.rev := rfl
@[simp] theorem setStage_resetLine (b : Vector Byte 64) : (s.setStage b).resetLine = s.resetLine := rfl
@[simp] theorem setStage_agenda (b : Vector Byte 64) : (s.setStage b).agenda = s.agenda := rfl
@[simp] theorem setStage_resp (b : Vector Byte 64) : (s.setStage b).resp = s.resp := rfl
@[simp] theorem setStage_freeCount (b : Vector Byte 64) : (s.setStage b).freeCount = s.freeCount := rfl

@[simp] theorem setTables_ctrl (f : Vector Byte 62) (r : Vector Byte 128) : (s.setTables f r).ctrl = s.ctrl := rfl
@[simp] theorem setTables_status (f : Vector Byte 62) (r : Vector Byte 128) : (s.setTables f r).status = s.status := rfl
@[simp] theorem setTables_pend (f : Vector Byte 62) (r : Vector Byte 128) : (s.setTables f r).pend = s.pend := rfl
@[simp] theorem setTables_operand (f : Vector Byte 62) (r : Vector Byte 128) : (s.setTables f r).operand = s.operand := rfl
@[simp] theorem setTables_result (f : Vector Byte 62) (r : Vector Byte 128) : (s.setTables f r).result = s.result := rfl
@[simp] theorem setTables_dbuf (f : Vector Byte 62) (r : Vector Byte 128) : (s.setTables f r).dbuf = s.dbuf := rfl
@[simp] theorem setTables_sym (f : Vector Byte 62) (r : Vector Byte 128) : (s.setTables f r).sym = s.sym := rfl
@[simp] theorem setTables_stage (f : Vector Byte 62) (r : Vector Byte 128) : (s.setTables f r).stage = s.stage := rfl
@[simp] theorem setTables_fwd (f : Vector Byte 62) (r : Vector Byte 128) : (s.setTables f r).fwd = f := rfl
@[simp] theorem setTables_rev (f : Vector Byte 62) (r : Vector Byte 128) : (s.setTables f r).rev = r := rfl
@[simp] theorem setTables_resetLine (f : Vector Byte 62) (r : Vector Byte 128) : (s.setTables f r).resetLine =
    s.resetLine := rfl
@[simp] theorem setTables_agenda (f : Vector Byte 62) (r : Vector Byte 128) : (s.setTables f r).agenda = s.agenda := rfl
@[simp] theorem setTables_resp (f : Vector Byte 62) (r : Vector Byte 128) : (s.setTables f r).resp = s.resp := rfl
@[simp] theorem setTables_freeCount (f : Vector Byte 62) (r : Vector Byte 128) : (s.setTables f r).freeCount =
    s.freeCount := rfl

@[simp] theorem setResetLine_ctrl (b : Bool) : (s.setResetLine b).ctrl = s.ctrl := rfl
@[simp] theorem setResetLine_status (b : Bool) : (s.setResetLine b).status = s.status := rfl
@[simp] theorem setResetLine_pend (b : Bool) : (s.setResetLine b).pend = s.pend := rfl
@[simp] theorem setResetLine_operand (b : Bool) : (s.setResetLine b).operand = s.operand := rfl
@[simp] theorem setResetLine_result (b : Bool) : (s.setResetLine b).result = s.result := rfl
@[simp] theorem setResetLine_dbuf (b : Bool) : (s.setResetLine b).dbuf = s.dbuf := rfl
@[simp] theorem setResetLine_sym (b : Bool) : (s.setResetLine b).sym = s.sym := rfl
@[simp] theorem setResetLine_stage (b : Bool) : (s.setResetLine b).stage = s.stage := rfl
@[simp] theorem setResetLine_fwd (b : Bool) : (s.setResetLine b).fwd = s.fwd := rfl
@[simp] theorem setResetLine_rev (b : Bool) : (s.setResetLine b).rev = s.rev := rfl
@[simp] theorem setResetLine_resetLine (b : Bool) : (s.setResetLine b).resetLine = b := rfl
@[simp] theorem setResetLine_agenda (b : Bool) : (s.setResetLine b).agenda = s.agenda := rfl
@[simp] theorem setResetLine_resp (b : Bool) : (s.setResetLine b).resp = s.resp := rfl
@[simp] theorem setResetLine_freeCount (b : Bool) : (s.setResetLine b).freeCount = s.freeCount := rfl

@[simp] theorem setAgenda_ctrl (a : List Turn) : (s.setAgenda a).ctrl = s.ctrl := rfl
@[simp] theorem setAgenda_status (a : List Turn) : (s.setAgenda a).status = s.status := rfl
@[simp] theorem setAgenda_pend (a : List Turn) : (s.setAgenda a).pend = s.pend := rfl
@[simp] theorem setAgenda_operand (a : List Turn) : (s.setAgenda a).operand = s.operand := rfl
@[simp] theorem setAgenda_result (a : List Turn) : (s.setAgenda a).result = s.result := rfl
@[simp] theorem setAgenda_dbuf (a : List Turn) : (s.setAgenda a).dbuf = s.dbuf := rfl
@[simp] theorem setAgenda_sym (a : List Turn) : (s.setAgenda a).sym = s.sym := rfl
@[simp] theorem setAgenda_stage (a : List Turn) : (s.setAgenda a).stage = s.stage := rfl
@[simp] theorem setAgenda_fwd (a : List Turn) : (s.setAgenda a).fwd = s.fwd := rfl
@[simp] theorem setAgenda_rev (a : List Turn) : (s.setAgenda a).rev = s.rev := rfl
@[simp] theorem setAgenda_resetLine (a : List Turn) : (s.setAgenda a).resetLine = s.resetLine := rfl
@[simp] theorem setAgenda_agenda (a : List Turn) : (s.setAgenda a).agenda = a := rfl
@[simp] theorem setAgenda_resp (a : List Turn) : (s.setAgenda a).resp = s.resp := rfl
@[simp] theorem setAgenda_freeCount (a : List Turn) : (s.setAgenda a).freeCount = s.freeCount := rfl

@[simp] theorem setResp_ctrl (r : Option BusResp) : (s.setResp r).ctrl = s.ctrl := rfl
@[simp] theorem setResp_status (r : Option BusResp) : (s.setResp r).status = s.status := rfl
@[simp] theorem setResp_pend (r : Option BusResp) : (s.setResp r).pend = s.pend := rfl
@[simp] theorem setResp_operand (r : Option BusResp) : (s.setResp r).operand = s.operand := rfl
@[simp] theorem setResp_result (r : Option BusResp) : (s.setResp r).result = s.result := rfl
@[simp] theorem setResp_dbuf (r : Option BusResp) : (s.setResp r).dbuf = s.dbuf := rfl
@[simp] theorem setResp_sym (r : Option BusResp) : (s.setResp r).sym = s.sym := rfl
@[simp] theorem setResp_stage (r : Option BusResp) : (s.setResp r).stage = s.stage := rfl
@[simp] theorem setResp_fwd (r : Option BusResp) : (s.setResp r).fwd = s.fwd := rfl
@[simp] theorem setResp_rev (r : Option BusResp) : (s.setResp r).rev = s.rev := rfl
@[simp] theorem setResp_resetLine (r : Option BusResp) : (s.setResp r).resetLine = s.resetLine := rfl
@[simp] theorem setResp_agenda (r : Option BusResp) : (s.setResp r).agenda = s.agenda := rfl
@[simp] theorem setResp_resp (r : Option BusResp) : (s.setResp r).resp = r := rfl
@[simp] theorem setResp_freeCount (r : Option BusResp) : (s.setResp r).freeCount = s.freeCount := rfl

@[simp] theorem useFree_ctrl : (s.useFree).ctrl = s.ctrl := rfl
@[simp] theorem useFree_status : (s.useFree).status = s.status := rfl
@[simp] theorem useFree_pend : (s.useFree).pend = s.pend := rfl
@[simp] theorem useFree_operand : (s.useFree).operand = s.operand := rfl
@[simp] theorem useFree_result : (s.useFree).result = s.result := rfl
@[simp] theorem useFree_dbuf : (s.useFree).dbuf = s.dbuf := rfl
@[simp] theorem useFree_sym : (s.useFree).sym = s.sym := rfl
@[simp] theorem useFree_stage : (s.useFree).stage = s.stage := rfl
@[simp] theorem useFree_fwd : (s.useFree).fwd = s.fwd := rfl
@[simp] theorem useFree_rev : (s.useFree).rev = s.rev := rfl
@[simp] theorem useFree_resetLine : (s.useFree).resetLine = s.resetLine := rfl
@[simp] theorem useFree_agenda : (s.useFree).agenda = s.agenda := rfl
@[simp] theorem useFree_resp : (s.useFree).resp = s.resp := rfl
@[simp] theorem useFree_freeCount : (s.useFree).freeCount = s.freeCount + 1 := rfl

end Sys2Proof.Machine.State
end

