-- ==== Sys2Proof/Laws/Commit.lean ====
section
/-! SUPPORT. Every command is an outcome, committed; and what a commit does, field by field. -/

namespace Sys2Proof.Machine

/-- The commit of a success (R193). -/
theorem commit_ok (r : Success) (s : State) : commit (.ok r) s =
  { applyWrites r.writes s with result := r.result, status := s.status.committed s.pend .ok 0 r.trunc } := by
  cases r with | mk w _ _ => cases w <;> rfl

/-- The commit of an error (R193). -/
theorem commit_error (e : CmdError) (s : State) :
    commit (.error e) s = { s with result := 0, status := s.status.committed s.pend e.code e.idx e.trunc } := rfl

/-- The STATUS fields of a commit, LASTOP as a number (R193). -/
theorem committed_eq (st : Status) (pend : Word) (c) (i) (t) :
    st.committed pend c i t =
    { busy := false, done := true, werr := st.werr, trunc := t, ecode := c, lastop := BitVec.ofNat 4 pend.toNat, eidx := i } := by
  simp only [Status.committed, Status.mk.injEq, true_and, and_true]
  apply BitVec.eq_of_toNat_eq; simp

/-- A raised error leaves the state but for RESULT and STATUS (R193). -/
theorem commit_raise (code : ErrCode) (i : Nat) (s : State) :
    commit (raise code i) s = s.afterCommit 0 code i false := by
  simp [raise, commit_error, State.afterCommit, committed_eq]

/-- A commit that writes no buffer and no table. -/
theorem commit_nothing (res : Word) (tr : Bool) (s : State) :
    commit (.ok ⟨.nothing, res, tr⟩) s = s.afterCommit res .ok 0 tr := by
  simp [commit_ok, State.afterCommit, committed_eq, applyWrites]

/-- What every command is: some outcome, committed. -/
def outcomeOf (i : Instr) (s : State) : Except CmdError Success :=
  match i with
  | .nop => performNop
  | .alphaDef => performAlphaDef
  | .alphaLoad n => performAlphaLoad n s
  | .alphaFwd => performAlphaFwd s
  | .alphaRev => performAlphaRev s
  | .lenEnc => lengthOutcome (encLenChecked s.operand)
  | .lenByte => lengthOutcome (byteLenChecked s.operand)
  | .encBlk k => performEncBlk k s
  | .decBlk j => performDecBlk j s

/-- Every command commits its outcome (R192). -/
theorem exec_eq_commit (i : Instr) (s : State) : exec i s = .next (commit (outcomeOf i s) s) := by cases i <;> rfl

/-- Completion commits the outcome of the decoded command, or the ILLEGAL outcome (R192, R194). -/
theorem complete_eq_commit (s : State) : ∃ o, complete s = .next (commit o s) ∧
   ((∃ i, decode s.pend = .ok i ∧ o = outcomeOf i s) ∨ (∃ w, decode s.pend = .error w) ∧ o = illegalOutcome) := by
  unfold complete
  split
  · rename_i i h; exact ⟨_, exec_eq_commit i s, .inl ⟨i, h, rfl⟩⟩
  · rename_i i h; exact ⟨_, rfl, .inr ⟨⟨_, h⟩, rfl⟩⟩

@[simp] theorem commit_ctrl (o) (s : State) : (commit o s).ctrl = s.ctrl := by
  rcases o with e | ⟨w, _, _⟩ <;> [rfl; cases w <;> rfl]

@[simp] theorem commit_pend (o) (s : State) : (commit o s).pend = s.pend := by
  rcases o with e | ⟨w, _, _⟩ <;> [rfl; cases w <;> rfl]

@[simp] theorem commit_operand (o) (s : State) : (commit o s).operand = s.operand := by
  rcases o with e | ⟨w, _, _⟩ <;> [rfl; cases w <;> rfl]

@[simp] theorem commit_stage (o) (s : State) : (commit o s).stage = s.stage := by
  rcases o with e | ⟨w, _, _⟩ <;> [rfl; cases w <;> rfl]

@[simp] theorem commit_resetLine (o) (s : State) : (commit o s).resetLine = s.resetLine := by
  rcases o with e | ⟨w, _, _⟩ <;> [rfl; cases w <;> rfl]

@[simp] theorem commit_agenda (o) (s : State) : (commit o s).agenda = s.agenda := by
  rcases o with e | ⟨w, _, _⟩ <;> [rfl; cases w <;> rfl]

@[simp] theorem commit_resp (o) (s : State) : (commit o s).resp = s.resp := by
  rcases o with e | ⟨w, _, _⟩ <;> [rfl; cases w <;> rfl]

@[simp] theorem commit_freeCount (o) (s : State) : (commit o s).freeCount = s.freeCount := by
  rcases o with e | ⟨w, _, _⟩ <;> [rfl; cases w <;> rfl]

@[simp] theorem commit_busy (o) (s : State) : (commit o s).status.busy = false := by
  rcases o with e | ⟨w, _, _⟩ <;> rfl

@[simp] theorem commit_done (o) (s : State) : (commit o s).status.done = true := by
  rcases o with e | ⟨w, _, _⟩ <;> rfl

@[simp] theorem commit_werr (o) (s : State) : (commit o s).status.werr = s.status.werr := by
  rcases o with e | ⟨w, _, _⟩ <;> rfl

@[simp] theorem commit_lastop (o) (s : State) : (commit o s).status.lastop = BitVec.ofNat 4 s.pend.toNat := by
  rcases o with e | ⟨w, _, _⟩ <;> (simp only [commit, State.setStatus, committed_eq])

/-- What a commit does to the tables: nothing, or writes a forward table with its reverse. -/
theorem commit_tables (o : Except CmdError Success) (s : State) :
    ((commit o s).fwd = s.fwd ∧ (commit o s).rev = s.rev) ∨
    ∃ f res tr, o = .ok ⟨.tables f, res, tr⟩ ∧ (commit o s).fwd = f ∧ (commit o s).rev = buildRev f := by
  rcases o with e | ⟨w, res, tr⟩
  · exact .inl ⟨rfl, rfl⟩
  · rw [commit_ok]
    cases w with
    | nothing => exact .inl ⟨rfl, rfl⟩
    | tables f => exact .inr ⟨f, res, tr, rfl, rfl, rfl⟩
    | symbols l => exact .inl ⟨rfl, rfl⟩
    | bytes l => exact .inl ⟨rfl, rfl⟩

/-- A commit that loads tables writes them, RESULT and STATUS, and nothing else. -/
theorem commit_tables_frame (f : Vector Byte 62) (r : Word) (tr : Bool) (s : State) :
    ∃ t, commit (.ok ⟨.tables f, r, tr⟩) s = t ∧
    t = { s with result := t.result, status := t.status, fwd := t.fwd, rev := t.rev } ∧
      t.status.werr = s.status.werr := by
  rw [commit_ok, applyWrites, State.setTables]
  generalize buildRev f = g
  exact ⟨_, rfl, rfl, rfl⟩

end Sys2Proof.Machine
end

