-- ==== Sys2Proof/Laws/Encoding.lean ====
section
/-! SUPPORT. The four fields of a command word as numbers, and the fields of an encoded command. -/

namespace Sys2Proof

theorem opField_toNat (w : Word) : (opField w).toNat = w.toNat % 16 := by
  simp [opField, BitVec.extractLsb'_toNat]

theorem rsv0Field_toNat (w : Word) : (rsv0Field w).toNat = w.toNat / 16 % 16 := by
  simp [rsv0Field, BitVec.extractLsb'_toNat, Nat.shiftRight_eq_div_pow]

theorem countField_toNat (w : Word) : (countField w).toNat = w.toNat / 256 % 256 := by
  simp [countField, BitVec.extractLsb'_toNat, Nat.shiftRight_eq_div_pow]

theorem rsv1Field_toNat (w : Word) : (rsv1Field w).toNat = w.toNat / 65536 := by
  have h := w.isLt
  simp [rsv1Field, BitVec.extractLsb'_toNat, Nat.shiftRight_eq_div_pow]
  omega

/-- Appending a field below a word is shifting the word up by the field's width and adding the field. -/
theorem append_toNat {m n : Nat} (a : BitVec m) (b : BitVec n) : (a ++ b).toNat = a.toNat * 2 ^ n + b.toNat := by
  rw [BitVec.toNat_append, ← Nat.shiftLeft_add_eq_or_of_lt b.isLt, Nat.shiftLeft_eq]

theorem encode_toNat (i : Instr) : (encode i).toNat = 256 * i.count.toNat + i.opcode.toNat := by
  simp only [encode, append_toNat]
  simp; omega

theorem opField_encode (i : Instr) : opField (encode i) = i.opcode := by
  have := i.opcode.isLt
  apply BitVec.eq_of_toNat_eq; rw [opField_toNat, encode_toNat]; omega

theorem countField_encode (i : Instr) : countField (encode i) = i.count := by
  have := i.opcode.isLt; have := i.count.isLt
  apply BitVec.eq_of_toNat_eq; rw [countField_toNat, encode_toNat]; omega

theorem rsv0Field_encode (i : Instr) : rsv0Field (encode i) = 0 := by
  have := i.opcode.isLt; have := i.count.isLt
  apply BitVec.eq_of_toNat_eq; rw [rsv0Field_toNat, encode_toNat]; simp; omega

theorem rsv1Field_encode (i : Instr) : rsv1Field (encode i) = 0 := by
  have := i.opcode.isLt; have := i.count.isLt
  apply BitVec.eq_of_toNat_eq; rw [rsv1Field_toNat, encode_toNat]; simp; omega

/-- A word is its four fields put together. -/
theorem word_toNat_fields (w : Word) :
    w.toNat = 65536 * (rsv1Field w).toNat + 256 * (countField w).toNat + 16 * (rsv0Field w).toNat + (opField w).toNat := by
  rw [opField_toNat, rsv0Field_toNat, countField_toNat, rsv1Field_toNat]; omega

/-- A word whose reserved bits are 0 decodes by its OP. -/
theorem decode_eq_decodeOp {w : Word} (h0 : rsv0Field w = 0) (h1 : rsv1Field w = 0) :
    decode w = decodeOp w (opField w).toNat := by
  simp [decode, h0, h1]

end Sys2Proof
end

