-- ==== Sys2Proof/Laws/PerInstr.lean ====
section
/-! SUPPORT. A statement made per command: what stands in the fields of its command word. -/

namespace Sys2Proof.Laws.EncodeFields

/-- The word of a command holds its OP in bits 3:0, its COUNT in bits 15:8, and 0 in both reserved fields (30_encoding.md R80,
R84). -/
def Statement (i : Instr) : Prop :=
  opField (encode i) = i.opcode ∧ countField (encode i) = i.count ∧ rsv0Field (encode i) = 0 ∧ rsv1Field (encode i) = 0

theorem nop : Statement .nop := ⟨opField_encode _, countField_encode _, rsv0Field_encode _, rsv1Field_encode _⟩

theorem alphaDef : Statement .alphaDef := ⟨opField_encode _, countField_encode _, rsv0Field_encode _, rsv1Field_encode _⟩

theorem alphaLoad (n : BitVec 8) : Statement (.alphaLoad n) :=
  ⟨opField_encode _, countField_encode _, rsv0Field_encode _, rsv1Field_encode _⟩

theorem alphaFwd : Statement .alphaFwd := ⟨opField_encode _, countField_encode _, rsv0Field_encode _, rsv1Field_encode _⟩

theorem alphaRev : Statement .alphaRev := ⟨opField_encode _, countField_encode _, rsv0Field_encode _, rsv1Field_encode _⟩

theorem lenEnc : Statement .lenEnc := ⟨opField_encode _, countField_encode _, rsv0Field_encode _, rsv1Field_encode _⟩

theorem lenByte : Statement .lenByte := ⟨opField_encode _, countField_encode _, rsv0Field_encode _, rsv1Field_encode _⟩

theorem encBlk (k : BitVec 8) : Statement (.encBlk k) :=
  ⟨opField_encode _, countField_encode _, rsv0Field_encode _, rsv1Field_encode _⟩

theorem decBlk (j : BitVec 8) : Statement (.decBlk j) :=
  ⟨opField_encode _, countField_encode _, rsv0Field_encode _, rsv1Field_encode _⟩

end Sys2Proof.Laws.EncodeFields
end

