-- ==== Sys2Proof/Laws/Window.lean ====
section
/-! SUPPORT. The register map, and reading and storing a word of a buffer. -/

namespace Sys2Proof.Machine

theorem regAt_cmd {a} (h : regAt a = .cmd) : a = 8 := by
  unfold regAt at h; repeat' (first | split at h | assumption | cases h)

theorem regAt_status {a} (h : regAt a = .status) : a = 12 := by
  unfold regAt at h; repeat' (first | split at h | assumption | cases h)

theorem regAt_result {a} (h : regAt a = .result) : a = 0x14 := by
  unfold regAt at h; repeat' (first | split at h | assumption | cases h)

theorem regAt_input {a} (h4 : a % 4 = 0) (h : regAt a = .cmd ∨ regAt a = .ctrl ∨ regAt a = .operand ∨
    (∃ w, regAt a = .dbufw w ∨ regAt a = .symw w ∨ regAt a = .stagew w)) : InputOffset a := by
  refine ⟨h4, ?_⟩
  generalize hr : regAt a = r at h
  unfold regAt at hr
  repeat' split at hr
  all_goals subst hr
  all_goals first | omega | simp at h

theorem regAt_dbuf {w} (h : w < 2) : regAt (0x20 + 4 * w) = .dbufw w := by
  unfold regAt; repeat (rw [if_neg (by omega)])
  rw [if_pos (by omega)]; congr 1; omega

theorem regAt_sym {w} (h : w < 6) : regAt (0x40 + 4 * w) = .symw w := by
  unfold regAt; repeat (rw [if_neg (by omega)])
  rw [if_pos (by omega)]; congr 1; omega

theorem regAt_stage {w} (h : w < 16) : regAt (0x80 + 4 * w) = .stagew w := by
  unfold regAt; repeat (rw [if_neg (by omega)])
  rw [if_pos (by omega)]; congr 1; omega

theorem regAt_fwd {w} (h : w < 16) : regAt (0xC0 + 4 * w) = .fwdw w := by
  unfold regAt; repeat (rw [if_neg (by omega)])
  rw [if_pos (by omega)]; congr 1; omega

theorem regAt_rev {w} (h : w < 32) : regAt (0x100 + 4 * w) = .revw w := by
  unfold regAt; repeat (rw [if_neg (by omega)])
  rw [if_pos (by omega)]; congr 1; omega

theorem regAt_fwd_inv {a w} (h : regAt a = .fwdw w) : 0x0C0 ≤ a ∧ a < 0x100 := by
  unfold regAt at h; repeat' (first | split at h | assumption | cases h)

theorem regAt_rev_inv {a w} (h : regAt a = .revw w) : 0x100 ≤ a ∧ a < 0x180 := by
  unfold regAt at h; repeat' (first | split at h | assumption | cases h)

theorem regAt_reserved {a} (h : ReservedOffset a) : regAt a = .reserved := by
  unfold regAt; unfold ReservedOffset at h; repeat (rw [if_neg (by omega)])

theorem regAt_readOnly {a} (h : a = 0x000 ∨ a = 0x014 ∨ (0x0C0 ≤ a ∧ a < 0x180) ∨ ReservedOffset a) :
   regAt a = .param ∨ regAt a = .result ∨ (∃ w, regAt a = .fwdw w) ∨ (∃ w, regAt a = .revw w) ∨ regAt a = .reserved := by
  generalize hr : regAt a = r
  unfold regAt at hr
  repeat' split at hr
  all_goals subst hr
  all_goals first | simp; done | omega

theorem regAt_of_input {a} (h : InputOffset a) :
    regAt a = .cmd ∨ regAt a = .ctrl ∨ regAt a = .operand ∨ (∃ w, regAt a = .dbufw w ∨ regAt a = .symw w ∨
    regAt a = .stagew w) := by
  obtain ⟨h4, h⟩ := h
  rcases h with rfl | rfl | rfl | h | h | h
  · simp [regAt]
  · simp [regAt]
  · simp [regAt]
  · obtain ⟨w, rfl⟩ : ∃ w, a = 0x20 + 4 * w := ⟨(a - 0x20) / 4, by omega⟩
    rw [regAt_dbuf (by omega)]; simp
  · obtain ⟨w, rfl⟩ : ∃ w, a = 0x40 + 4 * w := ⟨(a - 0x40) / 4, by omega⟩
    rw [regAt_sym (by omega)]; simp
  · obtain ⟨w, rfl⟩ : ∃ w, a = 0x80 + 4 * w := ⟨(a - 0x80) / 4, by omega⟩
    rw [regAt_stage (by omega)]; simp

/-- The offset of a register of the map. -/
def offsetOf : Reg → Nat
  | .param => 0x000 | .ctrl => 0x004 | .cmd => 0x008 | .status => 0x00C | .operand => 0x010 | .result => 0x014
  | .dbufw w => 0x020 + 4 * w | .symw w => 0x040 + 4 * w | .stagew w => 0x080 + 4 * w | .fwdw w => 0x0C0 + 4 * w
  | .revw w => 0x100 + 4 * w | .reserved => 0

theorem offsetOf_regAt {a : Nat} (ha : a % 4 = 0) (hr : regAt a ≠ .reserved) : offsetOf (regAt a) = a := by
  generalize e1 : regAt a = r1 at hr
  unfold regAt at e1
  repeat' split at e1
  all_goals subst e1
  all_goals first | exact absurd rfl hr | (simp only [offsetOf]; omega)

theorem regAt_inj {a b : Nat} (ha : a % 4 = 0) (hb : b % 4 = 0) (h : regAt a = regAt b) (hr : regAt a ≠ .reserved) :
    a = b := by
  rw [← offsetOf_regAt ha hr, h, offsetOf_regAt hb (h ▸ hr)]

theorem packWord_byte (b3 b2 b1 b0 : Byte) :
   (b3 ++ b2 ++ b1 ++ b0 : BitVec 32).extractLsb' 0 8 = b0 ∧ (b3 ++ b2 ++ b1 ++ b0 : BitVec 32).extractLsb' 8 8 = b1 ∧
   (b3 ++ b2 ++ b1 ++ b0 : BitVec 32).extractLsb' 16 8 = b2 ∧ (b3 ++ b2 ++ b1 ++ b0 : BitVec 32).extractLsb' 24 8 = b3 := by
  have h0 := b0.isLt; have h1 := b1.isLt; have h2 := b2.isLt; have h3 := b3.isLt
  refine ⟨?_, ?_, ?_, ?_⟩ <;> apply BitVec.eq_of_toNat_eq <;>
    simp only [BitVec.extractLsb'_toNat, append_toNat, Nat.shiftRight_eq_div_pow] <;> omega

theorem packBytes_byte {n} (t : Vector Byte n) (w i : Nat) (hi : i < 4) :
    (packBytes t w).extractLsb' (8 * i) 8 = t[4 * w + i]?.getD 0 := by
  have h := packWord_byte (t[4 * w + 3]?.getD 0) (t[4 * w + 2]?.getD 0) (t[4 * w + 1]?.getD 0) (t[4 * w]?.getD 0)
  obtain rfl | rfl | rfl | rfl : i = 0 ∨ i = 1 ∨ i = 2 ∨ i = 3 := by omega
  · exact h.1
  · exact h.2.1
  · exact h.2.2.1
  · exact h.2.2.2

theorem packLanes_half {n} (t : Vector Lane n) (w i : Nat) (hi : i < 2) :
    (packLanes t w).extractLsb' (16 * i) 16 = t[2 * w + i]?.getD 0 := by
  have h0 := (t[2 * w]?.getD 0).isLt; have h1 := (t[2 * w+1]?.getD 0).isLt
  obtain rfl | rfl : i = 0 ∨ i = 1 := by omega
  all_goals
    apply BitVec.eq_of_toNat_eq
    simp only [packLanes, Nat.add_zero, Nat.mul_zero, Nat.pow_zero, Nat.div_one, BitVec.extractLsb'_toNat, append_toNat, Nat.shiftRight_eq_div_pow]; omega

theorem byteOf_packBytes {n} (t : Vector Byte n) (w i : Nat) (hi : i < 4) :
    byteOf (packBytes t w) i = t[4 * w + i]?.getD 0 := packBytes_byte t w i hi

theorem byteOf_packLanes_congr {n} (t u : Vector Lane n) (w i : Nat) (hi : i < 4)
    (h : t[2 * w + i / 2]? = u[2 * w + i / 2]?) :
    byteOf (packLanes t w) i = byteOf (packLanes u w) i := by
  have h1 := packLanes_half t w (i / 2) (by omega)
  have h2 := packLanes_half u w (i / 2) (by omega)
  rw [h, ← h2] at h1
  have ht := (packLanes t w).isLt
  have hu := (packLanes u w).isLt
  have := congrArg BitVec.toNat h1
  apply BitVec.eq_of_toNat_eq
  unfold byteOf
  obtain rfl | rfl | rfl | rfl : i = 0 ∨ i = 1 ∨ i = 2 ∨ i = 3 := by omega
  all_goals
    simp only [BitVec.extractLsb'_toNat, Nat.shiftRight_eq_div_pow] at this ⊢; omega

theorem word_of_bytes (v : Word) :
    v.extractLsb' (8*3) 8 ++ v.extractLsb' (8*2) 8 ++ v.extractLsb' (8*1) 8 ++ v.extractLsb' (8*0) 8 = v := by
  apply BitVec.eq_of_toNat_eq
  have := v.isLt
  simp only [append_toNat, BitVec.extractLsb'_toNat, Nat.shiftRight_eq_div_pow]; omega

theorem storeBytes_get {n} (t : Vector Byte n) (w v) (i : Nat) :
    (storeBytes t w v)[i]? = if h : i < n then (if i / 4 = w then some (byteOf v (i % 4)) else t[i]?) else none := by
  unfold storeBytes
  simp only [Vector.getElem?_setIfInBounds]
  split
  · rename_i h; subst h; simp [show (4*w+3)/4 = w by omega, show (4*w+3)%4=3 by omega]
  · split
    · rename_i h; subst h; simp [show (4*w+2)/4 = w by omega, show (4*w+2)%4=2 by omega]
    · split
      · rename_i h; subst h; simp [show (4*w+1)/4 = w by omega, show (4*w+1)%4=1 by omega]
      · split
        · rename_i h; subst h; simp
        · rw [if_neg (by omega)]; split
          · rfl
          · simp; omega

theorem packBytes_storeBytes_same {n} (t : Vector Byte n) (w v) (h : 4 * w + 3 < n) : packBytes (storeBytes t w v) w = v := by
  unfold packBytes; simp only [storeBytes_get]
  rw [dif_pos h, dif_pos (by omega), dif_pos (by omega), dif_pos (by omega)]
  rw [if_pos (by omega), if_pos (by omega), if_pos (by omega), if_pos (by omega)]
  rw [show (4*w+3)%4=3 by omega, show (4*w+2)%4=2 by omega, show (4*w+1)%4=1 by omega, show (4*w)%4=0 by omega]
  exact word_of_bytes v

theorem packBytes_storeBytes_ne {n} (t : Vector Byte n) (w w' v) (h : w' ≠ w) :
    packBytes (storeBytes t w v) w' = packBytes t w' := by
  have key : ∀ i, i / 4 = w' → (storeBytes t w v)[i]? = t[i]? := by
    intro i hi; rw [storeBytes_get, if_neg (by omega)]; split
    · rfl
    · simp; omega
  unfold packBytes
  rw [key _ (by omega), key _ (by omega), key _ (by omega), key _ (by omega)]

theorem storeLanes_get {n} (t : Vector Lane n) (w v) (i : Nat) :
    (storeLanes t w v)[i]? = if h : i < n then (if i / 2 = w then some (halfOf v (i % 2)) else t[i]?) else none := by
  unfold storeLanes
  simp only [Vector.getElem?_setIfInBounds]
  split
  · rename_i h; subst h; simp [show (2*w+1)/2 = w by omega, show (2*w+1)%2=1 by omega]
  · split
    · rename_i h; subst h; simp
    · rw [if_neg (by omega)]; split
      · rfl
      · simp; omega

theorem packLanes_storeLanes_same {n} (t : Vector Lane n) (w v) (h : 2 * w < n) :
    packLanes (storeLanes t w v) w = if 2 * w + 1 < n then v else v &&& 0xFFFF := by
  unfold packLanes; simp only [storeLanes_get]
  rw [dif_pos h, if_pos (show 2*w/2=w by omega), if_pos (show (2*w+1)/2=w by omega)]
  rw [show (2*w+1)%2=1 by omega, show (2*w)%2=0 by omega]
  have := v.isLt
  split <;> rename_i h1
  · apply BitVec.eq_of_toNat_eq
    simp only [Option.getD_some, append_toNat, halfOf, BitVec.extractLsb'_toNat, Nat.shiftRight_eq_div_pow]; omega
  · apply BitVec.eq_of_toNat_eq
    simp only [Option.getD_some, Option.getD_none, append_toNat, halfOf, BitVec.extractLsb'_toNat, Nat.shiftRight_eq_div_pow, BitVec.toNat_and]
    simp
    exact (Nat.and_two_pow_sub_one_eq_mod v.toNat 16).symm

theorem packLanes_storeLanes_ne {n} (t : Vector Lane n) (w w' v) (h : w' ≠ w) :
    packLanes (storeLanes t w v) w' = packLanes t w' := by
  have key : ∀ i, i / 2 = w' → (storeLanes t w v)[i]? = t[i]? := by
    intro i hi; rw [storeLanes_get, if_neg (by omega)]; split
    · rfl
    · simp; omega
  unfold packLanes
  rw [key _ (by omega), key _ (by omega)]

theorem ctrl_word_ofWord (v : Word) : (Ctrl.ofWord v).word = v &&& 3 := by
  ext i hi
  simp only [Ctrl.word, Ctrl.ofWord, ← BitVec.getLsbD_eq_getElem, BitVec.getLsbD_append, BitVec.getLsbD_and]
  have h3 : ∀ i, (3 : BitVec 32).getLsbD i = (decide (i = 0) || decide (i = 1)) := by
    intro i; by_cases hi : i < 32
    · interval_cases i <;> rfl
    · rw [BitVec.getLsbD_of_ge _ _ (by omega)]; simp; omega
  rw [h3]
  obtain rfl | rfl | h2 : i = 0 ∨ i = 1 ∨ 2 ≤ i := by omega
  · simp
  · simp
  · simp [show ¬ i < 1 by omega, show ¬ i - 1 < 1 by omega, show i ≠ 0 by omega, show i ≠ 1 by omega]

/-- A byte of the window outside STATUS and RESULT reads as before when the word that holds it shows the same there. -/
theorem windowByte_congr {s t : State} (a : Nat) (hc : t.ctrl = s.ctrl) (ho : t.operand = s.operand) (hg : t.stage = s.stage)
    (h1 : ¬(0x00C ≤ a ∧ a < 0x010)) (h2 : ¬(0x014 ≤ a ∧ a < 0x018))
    (hd : t.dbuf = s.dbuf ∨ ∀ w, regAt (a - a % 4) = .dbufw w →
        byteOf (packBytes t.dbuf w) (a % 4) = byteOf (packBytes s.dbuf w) (a % 4))
    (hl : t.sym = s.sym ∨ ∀ w, regAt (a - a % 4) = .symw w →
        byteOf (packLanes t.sym w) (a % 4) = byteOf (packLanes s.sym w) (a % 4))
    (hf : (t.fwd = s.fwd ∧ t.rev = s.rev) ∨ ¬(0x0C0 ≤ a ∧ a < 0x180)) : windowByte a t = windowByte a s := by
  unfold windowByte memRead
  cases hr : regAt (a - a % 4) with
  | param => rfl
  | ctrl => simp only [readReg, hc]
  | cmd => rfl
  | status => have := regAt_status hr; omega
  | operand => simp only [readReg, ho]
  | result => have := regAt_result hr; omega
  | dbufw w => rcases hd with h | h <;> [simp only [readReg, h]; exact h w hr]
  | symw w => rcases hl with h | h <;> [simp only [readReg, h]; exact h w hr]
  | stagew w => simp only [readReg, hg]
  | fwdw w =>
    rcases hf with h | h
    · simp only [readReg, h.1]
    · have := regAt_fwd_inv hr; omega
  | revw w =>
    rcases hf with h | h
    · simp only [readReg, h.2]
    · have := regAt_rev_inv hr; omega
  | reserved => rfl

end Sys2Proof.Machine
end

