-- ==== Sys2Proof/Laws/Step.lean ====
section
/-! SUPPORT. What a host access can do, and what a step can do. -/

namespace Sys2Proof.Machine

/-- The answer during reset is OK at a reserved offset, and changes the answer and the free-value counter at most. -/
theorem answerInReset_eq (a answer) (s : State) :
    ∃ e n, answerInReset a answer s = { s with resp := some (answer e), freeCount := n } ∧
      (regAt a = .reserved → e = false ∧ n = s.freeCount) := by
  unfold answerInReset; split
  · exact ⟨_, _, rfl, fun _ => ⟨rfl, rfl⟩⟩
  · rename_i h; exact ⟨_, _, rfl, fun h' => absurd h' h⟩

/-- A host read changes the answer and the free-value counter at most. -/
theorem hostRead_eq (ad size) (s : State) : ∃ r n, hostRead ad size s = { s with resp := r, freeCount := n } := by
  unfold hostRead; split
  · exact ⟨_, _, rfl⟩
  · split
    · split
      · obtain ⟨e, n, h, _⟩ := answerInReset_eq _ (.read · 0) s; exact ⟨_, n, h⟩
      · exact ⟨_, _, rfl⟩
    · exact ⟨_, _, rfl⟩

/-- A host write changes no more than a read does, or is an accepted word write. -/
theorem hostWrite_cases (ad size v) (s : State) : (∃ r n, hostWrite ad size v s = { s with resp := r, freeCount := n }) ∨
   (∃ a, ad.offset? = some a ∧ s.resetLine = false ∧ size = 4 ∧ a % 4 = 0 ∧
       hostWrite ad size v s = { memWrite a v s with resp := some (.write false) }) := by
  unfold hostWrite; split
  · exact .inl ⟨_, _, rfl⟩
  · rename_i a ha
    split
    · rename_i hacc; simp [accepted] at hacc
      split
      · obtain ⟨e, n, h, _⟩ := answerInReset_eq a .write s; exact .inl ⟨_, n, h⟩
      · rename_i hr; exact .inr ⟨a, ha, by simpa using hr, hacc.1, hacc.2, rfl⟩
    · exact .inl ⟨_, _, rfl⟩

/-- What a write of one register does. -/
theorem writeReg_cases (r : Reg) (v : Word) (s : State) :
    writeReg r v s = s ∨ (r = .status ∧ writeReg r v s = s.setStatus (s.status.acknowledge v)) ∨
    (s.status.busy = true ∧ writeReg r v s = dropWrite s ∧
      (r = .cmd ∨ r = .ctrl ∨ r = .operand ∨ (∃ w, r = .dbufw w ∨ r = .symw w ∨ r = .stagew w))) ∨
    (s.status.busy = false ∧ ((r = .cmd ∧ writeReg r v s = accept v s) ∨
      (∃ c o d l g, writeReg r v s = { s with ctrl := c, operand := o, dbuf := d, sym := l, stage := g }))) := by
  cases hb : s.status.busy <;> cases r <;> simp [writeReg, whenIdle, hb]
  · exact .inr ⟨Ctrl.ofWord v, s.operand, s.dbuf, s.sym, s.stage, rfl⟩
  · exact .inr ⟨s.ctrl, v, s.dbuf, s.sym, s.stage, rfl⟩
  · exact .inr ⟨s.ctrl, s.operand, _, s.sym, s.stage, rfl⟩
  · exact .inr ⟨s.ctrl, s.operand, s.dbuf, _, s.stage, rfl⟩
  · exact .inr ⟨s.ctrl, s.operand, s.dbuf, s.sym, _, rfl⟩

/-- A host write never changes the tables. -/
theorem writeReg_tables (r v) (s : State) : (writeReg r v s).fwd = s.fwd ∧ (writeReg r v s).rev = s.rev := by
  rcases writeReg_cases r v s with e | ⟨hc, e⟩ | ⟨hb, e, hc⟩ | ⟨hb, ⟨hc, e⟩ | ⟨c, o, d, l, g, e⟩⟩ <;> rw [e] <;>
      exact ⟨rfl, rfl⟩

theorem runSteps_next {s t : State} (h : step s = .next t) (k) : runSteps (k+1) s = runSteps k t := by
  simp [runSteps, h]

/-- Everything a step can do: enter reset, stay in it, leave it, wait, complete a command, or take a host access, which changes
nothing of the block or is a word write. -/
inductive StepCase (s t : State) : Prop
  | reset (rest) (h : s.agenda = .assertReset :: rest)
      (ht : t = { State.reset with resetLine := true, agenda := rest, resp := s.resp, freeCount := s.freeCount })
  | held (hr : s.resetLine = true) (rest) (h : s.agenda = [] ∧ rest = [] ∨ s.agenda = .block :: rest)
      (ht : t = { State.reset with resetLine := true, agenda := rest, resp := s.resp, freeCount := s.freeCount })
  | release (rest) (h : s.agenda = .releaseReset :: rest) (ht : t = { s with resetLine := false, agenda := rest })
  | idle (hr : s.resetLine = false) (hb : s.status.busy = false) (rest)
      (h : s.agenda = [] ∧ rest = [] ∨ s.agenda = .block :: rest) (ht : t = { s with agenda := rest })
  | commit (hr : s.resetLine = false) (hb : s.status.busy = true) (rest)
      (h : s.agenda = [] ∧ rest = [] ∨ s.agenda = .block :: rest) (ht : complete { s with agenda := rest } = .next t)
  | nothing (a rest) (ha : a.isAccess = true) (h : s.agenda = a :: rest) (r n)
      (ht : t = { s with agenda := rest, resp := r, freeCount := n })
  | write (ad v rest a) (h : s.agenda = .hostWrite ad 4 v :: rest) (ho : ad.offset? = some a) (hr : s.resetLine = false)
      (h4 : a % 4 = 0) (ht : t = { memWrite a v { s with agenda := rest } with resp := some (.write false) })

theorem blockTurn_cases {s : State} {a : List Turn} {t : State} (h : blockTurn { s with agenda := a } = .next t) :
   (s.resetLine = true ∧ t = { State.reset with resetLine := true, agenda := a, resp := s.resp, freeCount := s.freeCount }) ∨
   (s.resetLine = false ∧ s.status.busy = false ∧ t = {s with agenda := a}) ∨
   (s.resetLine = false ∧ s.status.busy = true ∧ complete {s with agenda := a} = .next t) := by
  unfold blockTurn at h
  split at h
  · rename_i hr; replace hr : s.resetLine = true := hr; cases h; exact .inl ⟨hr, by simp [resetBlock, hr]⟩
  · rename_i hr; replace hr : s.resetLine = false := by simpa using hr
    split at h
    · rename_i hb; exact .inr (.inr ⟨hr, hb, h⟩)
    · rename_i hb; replace hb : s.status.busy = false := by simpa using hb
      cases h; exact .inr (.inl ⟨hr, hb, rfl⟩)

theorem step_cases {s t : State} (h : step s = .next t) : StepCase s t := by
  unfold step nextTurn at h
  split at h
  · rename_i ha
    have e : s = { s with agenda := [] } := by cases s; cases ha; rfl
    rw [e] at h
    rcases blockTurn_cases h with ⟨a, b⟩ | ⟨a, b, c⟩ | ⟨a, b, c⟩
    · exact .held a [] (.inl ⟨ha, rfl⟩) b
    · exact .idle a b [] (.inl ⟨ha, rfl⟩) c
    · exact .commit a b [] (.inl ⟨ha, rfl⟩) c
  · rename_i a rest ha
    cases a with
    | hostRead ad size =>
      obtain ⟨r, n, e⟩ := hostRead_eq ad size (s.setAgenda rest)
      simp only [takeTurn, e] at h; cases h
      exact .nothing _ rest rfl ha r n rfl
    | hostWrite ad size v =>
      simp only [takeTurn] at h
      rcases hostWrite_cases ad size v (s.setAgenda rest) with ⟨r, n, e⟩ | ⟨a, ho, hr, rfl, h4, e⟩
      · rw [e] at h; cases h; exact .nothing _ rest rfl ha r n rfl
      · rw [e] at h; cases h; exact .write ad v rest a ha ho hr h4 rfl
    | assertReset => cases h; exact .reset rest ha rfl
    | releaseReset => cases h; exact .release rest ha rfl
    | block =>
      rcases blockTurn_cases (s := s) (a := rest) h with ⟨a, b⟩ | ⟨a, b, c⟩ | ⟨a, b, c⟩
      · exact .held a rest (.inr ha) b
      · exact .idle a b rest (.inr ha) c
      · exact .commit a b rest (.inr ha) c

/-- The machine never stops. -/
theorem step_next (s : State) : ∃ t, step s = .next t := by
  have hb : ∀ s, ∃ t, blockTurn s = .next t := by
    intro s; unfold blockTurn; split
    · exact ⟨_, rfl⟩
    · split
      · obtain ⟨o, h, _⟩ := complete_eq_commit s; exact ⟨_, h⟩
      · exact ⟨_, rfl⟩
  unfold step nextTurn; split
  · exact hb s
  · unfold takeTurn; split <;> first | exact ⟨_, rfl⟩ | exact hb _

/-- The step of an accepted word write. -/
theorem windowStep_write {s : State} {addr a v rest} (hr : s.resetLine = false) (h4 : a % 4 = 0) (ho : addr.offset? = some a)
   (h : s.agenda = .hostWrite addr 4 v :: rest) : step s =
       .next { memWrite a v { s with agenda := rest } with resp := some (.write false) } := by
  simp only [step, nextTurn, h, takeTurn, hostWrite, ho, accepted, h4, State.setResp, State.setAgenda, hr]; rfl

/-- While a command is in flight, a host access changes STATUS.DONE and STATUS.WERR,
    the answer and the free-value counter at most. -/
theorem access_inFlight {s : State} {a : Turn} {rest} (hb : s.status.busy = true) (hr : s.resetLine = false)
    (ha : a.isAccess = true)
    (h : s.agenda = a :: rest) : ∃ d w r n, step s =
        .next { s with status := { s.status with done := d, werr := w }, agenda := rest, resp := r, freeCount := n } ∧
        (s.status.done = false → d = false) := by
  obtain ⟨t, ht⟩ := step_next s
  rw [ht]
  rcases step_cases ht with
      ⟨rest', ha', rfl⟩ | ⟨hr', rest', ha', rfl⟩ | ⟨rest', ha', rfl⟩ | ⟨hr, hb', rest', ha', rfl⟩ |
      ⟨hr, hb', rest', ha', ht⟩ | ⟨a, rest', hacc, ha', r, n, rfl⟩ | ⟨ad, v, rest', a', ha', ho, hr, h4, rfl⟩
  · rw [h] at ha'; cases ha'; cases ha
  · rw [hr] at hr'; cases hr'
  · rw [h] at ha'; cases ha'; cases ha
  · rw [hb] at hb'; cases hb'
  · rw [h] at ha'; rcases ha' with ⟨e, _⟩ | e <;> cases e; cases ha
  · rw [h] at ha'; cases ha'
    exact ⟨s.status.done, s.status.werr, r, n, rfl, id⟩
  · rw [h] at ha'; cases ha'
    rcases writeReg_cases (regAt a') v { s with agenda := rest } with
        e | ⟨hc, e⟩ | ⟨hb, e, hc⟩ | ⟨hb', ⟨hc, e⟩ | ⟨c, o, d, l, g, e⟩⟩ <;> rw [memWrite, e]
    · exact ⟨_, _, _, _, rfl, id⟩
    · exact ⟨_, _, _, _, rfl, fun h => by simp [h]⟩
    · exact ⟨_, _, _, _, rfl, id⟩
    · simp [hb] at hb'
    · simp [hb] at hb'

/-- The same of any number of host accesses. -/
theorem accesses_inFlight (accs : List Turn) (rest : List Turn) (s : State) (hb : s.status.busy = true)
    (hr : s.resetLine = false) (ha : ∀ a ∈ accs, a.isAccess = true)
    (h : s.agenda = accs ++ rest) (k : Nat) : ∃ d w r n, runSteps (accs.length + k) s =
        runSteps k { s with status := { s.status with done := d, werr := w }, agenda := rest, resp := r, freeCount := n } ∧
        (s.status.done = false → d = false) := by
  induction accs generalizing s with
  | nil => exact ⟨s.status.done, s.status.werr, s.resp, s.freeCount, by simp at h; rw [← h]; simp, id⟩
  | cons a as ih =>
    obtain ⟨d, w, r, n, e, hd⟩ := access_inFlight hb hr (ha a List.mem_cons_self) h
    obtain ⟨d', w', r', n', e', hd'⟩ := ih
      { s with status := { s.status with done := d, werr := w }, agenda := as ++ rest, resp := r, freeCount := n } hb hr
      (fun x hx => ha x (List.mem_cons_of_mem _ hx)) rfl
    refine ⟨d', w', r', n', ?_, fun h => hd' (hd h)⟩
    rw [List.length_cons, Nat.add_right_comm]; exact (runSteps_next e _).trans e'

end Sys2Proof.Machine
end

