-- ==== Sys2Proof/Laws/Tables.lean ====
section
/-! SUPPORT. The alphabet check and the loop that fills the reverse table. -/

namespace Sys2Proof.Machine

/-- Filling leaves the entry of a code that is not in the list. -/
theorem fillRev_of_notMem (cs : List Byte) (d : Nat) (r : Vector Byte 128) (c : Nat) (h : ∀ b ∈ cs, b.toNat ≠ c) :
    (fillRev cs d r)[c]? = r[c]? := by
  induction cs generalizing d r with
  | nil => rfl
  | cons b bs ih =>
    rw [fillRev, ih _ _ fun x hx => h x (List.mem_cons_of_mem _ hx)]
    rw [Vector.getElem?_setIfInBounds_ne]
    exact h b List.mem_cons_self

/-- Filling writes each listed code's digit value. -/
theorem fillRev_of_mem (cs : List Byte) (d : Nat) (r : Vector Byte 128) (hn : cs.Nodup) (i : Nat) (hi : i < cs.length)
    (hc : cs[i].toNat < 128) : (fillRev cs d r)[cs[i].toNat]? = some (BitVec.ofNat 8 (d + i)) := by
  induction cs generalizing d r i with
  | nil => simp at hi
  | cons b bs ih =>
    rw [List.nodup_cons] at hn
    cases i with
    | zero =>
      rw [fillRev, fillRev_of_notMem]
      · simp only [List.getElem_cons_zero] at hc ⊢
        rw [Vector.getElem?_setIfInBounds_self_of_lt hc]; rfl
      · intro x hx e
        have e' : x = b := BitVec.eq_of_toNat_eq e
        exact hn.1 (e' ▸ hx)
    | succ i =>
      have := ih (d + 1) (r.setIfInBounds b.toNat (BitVec.ofNat 8 d)) hn.2 i (by simpa using hi) (by simpa using hc)
      simp only [fillRev, List.getElem_cons_succ, this]; congr 2; omega

theorem stagedSymbols_getElem (s : State) (d : Fin 62) : (stagedSymbols s)[d] = s.stage[d.val] := by simp [stagedSymbols]

/-- The scan succeeds when every index is good (R100). -/
theorem checkSymbols_spec (seen cs : List Byte) (i : Nat) :
    (∀ j, (hj : j < cs.length) → cs[j] ≠ 0 ∧ cs[j].toNat ≤ 127 ∧ cs[j] ∉ seen ∧ ∀ h, (hh : h < j) → cs[h] ≠ cs[j]) →
        checkSymbols seen i cs = .ok () := by
  induction cs generalizing seen i with
  | nil => intro _; rfl
  | cons c cs ih =>
    intro h
    obtain ⟨h0, h1, h2, -⟩ := h 0 (by simp)
    simp only [List.getElem_cons_zero] at h0 h1 h2
    rw [checkSymbols, if_neg h0, if_neg (by omega), if_neg h2]
    apply ih
    intro j hj
    obtain ⟨a, b, c', d⟩ := h (j+1) (by simpa using hj)
    simp only [List.getElem_cons_succ] at a b c'
    refine ⟨a, b, ?_, ?_⟩
    · have := d 0 (by omega)
      simp only [List.getElem_cons_zero, List.getElem_cons_succ] at this
      simp [c', Ne.symm this]
    · intro h' hh; exact d (h'+1) (by omega)

/-- The scan stops at the first index that is not good, with that index's error (R100). -/
theorem checkSymbols_first (seen cs : List Byte) (i j : Nat) (hj : j < cs.length)
    (hg : ∀ h, (hh : h < j) → cs[h] ≠ 0 ∧ cs[h].toNat ≤ 127 ∧ cs[h] ∉ seen ∧ ∀ h', (hh : h' < h) → cs[h'] ≠ cs[h])
    (hb : ¬ (cs[j] ≠ 0 ∧ cs[j].toNat ≤ 127 ∧ cs[j] ∉ seen ∧ ∀ h, (hh : h < j) → cs[h] ≠ cs[j])) :
    checkSymbols seen i cs = raise (if cs[j] =
        0 then .cfgZero else if cs[j].toNat > 127 then .cfgNonAscii else .cfgDup) (i + j) := by
  induction cs generalizing seen i j with
  | nil => simp at hj
  | cons c cs ih =>
    cases j with
    | zero =>
      simp only [List.getElem_cons_zero] at hb ⊢
      rw [checkSymbols]
      by_cases h0 : c = 0
      · simp [h0]
      by_cases h1 : c.toNat > 127
      · simp only [if_neg h0, if_pos h1, Nat.add_zero]
      by_cases h2 : c ∈ seen
      · simp only [if_neg h0, if_neg h1, if_pos h2, Nat.add_zero]
      · exact absurd ⟨h0, by omega, h2, by simp⟩ hb
    | succ j =>
      obtain ⟨h0, h1, h2, -⟩ := hg 0 (by omega)
      simp only [List.getElem_cons_zero] at h0 h1 h2
      rw [checkSymbols, if_neg h0, if_neg (by omega), if_neg h2]
      have := ih (c :: seen) (i + 1) j (by simpa using hj) ?_ ?_
      · rw [this]; simp only [List.getElem_cons_succ]; congr 1; omega
      · intro h hh
        obtain ⟨a, b, c', d⟩ := hg (h+1) (by omega)
        simp only [List.getElem_cons_succ] at a b c'
        refine ⟨a, b, ?_, ?_⟩
        · have := d 0 (by omega)
          simp only [List.getElem_cons_zero, List.getElem_cons_succ] at this
          simp [c', Ne.symm this]
        · intro h' hh; exact d (h'+1) (by omega)
      · intro ⟨a, b, c', d⟩
        apply hb
        simp only [List.getElem_cons_succ]
        simp at c'
        refine ⟨a, b, c'.2, ?_⟩
        intro h hh
        cases h with
        | zero => simp only [List.getElem_cons_zero]; exact Ne.symm c'.1
        | succ h => exact d h (by omega)

/-- A scan that succeeds found every index good. -/
theorem checkSymbols_ok {seen cs : List Byte} {i : Nat} (h : checkSymbols seen i cs = .ok ()) :
    ∀ j, (hj : j < cs.length) → cs[j] ≠ 0 ∧ cs[j].toNat ≤ 127 ∧ cs[j] ∉ seen ∧ ∀ h, (hh : h < j) → cs[h] ≠ cs[j] := by
  induction cs generalizing seen i with
  | nil => intro j hj; simp at hj
  | cons c cs ih =>
    rw [checkSymbols] at h
    split at h; · cases h
    split at h; · cases h
    split at h; · cases h
    rename_i h0 h1 h2
    intro j hj
    cases j with
    | zero => exact ⟨h0, by simpa using h1, h2, by simp⟩
    | succ j =>
      obtain ⟨a, b, c', d⟩ := ih h j (by simpa using hj)
      simp at c'
      refine ⟨a, b, c'.2, ?_⟩
      intro h hh
      cases h with
      | zero => exact Ne.symm c'.1
      | succ h => exact d h (by omega)

/-- What an error of the scan carries. -/
theorem checkSymbols_error {seen cs : List Byte} {i : Nat} {e} (h : checkSymbols seen i cs = .error e) :
    ∃ j, i ≤ j ∧ j < i + cs.length ∧ e.idx = BitVec.ofNat 8 j ∧ e.trunc = false ∧ (e.code = .cfgZero ∨
        e.code = .cfgNonAscii ∨ e.code = .cfgDup) := by
  induction cs generalizing seen i with
  | nil => cases h
  | cons c cs ih =>
    rw [checkSymbols] at h
    split at h
    · cases h; exact ⟨i, by simp⟩
    split at h
    · cases h; exact ⟨i, by simp⟩
    split at h
    · cases h; exact ⟨i, by simp⟩
    obtain ⟨j, a, b, c⟩ := ih h
    exact ⟨j, by omega, by simp; omega, c⟩

end Sys2Proof.Machine
end

