-- ==== Sys2Proof/Tests/Slice0.lean ====
section
/-! SUPPORT. The model's own tests. Expected values come from the spec: the encodings of 30_encoding.md, and the vectors of
95_test_vectors.md, whose names stand in the comments. The witnesses at the end meet the hypotheses of the statements. -/

namespace Sys2Proof.Tests

-- One test after the other: side by side, their kernel checks hold too many threads.
set_option Elab.async false

open Sys2Proof.Machine

/-! ## Well-formedness -/

theorem test_wf_refuses_encBlk_9 : Instr.wf (.encBlk 9) = false := by decide
theorem test_wf_refuses_decBlk_12 : Instr.wf (.decBlk 12) = false := by decide
theorem test_wf_accepts_the_largest_counts :
    Instr.wf (.encBlk 8) = true ∧ Instr.wf (.decBlk 11) = true ∧ Instr.wf (.alphaLoad 255) = true := by decide

/-! ## Decoding: RSV1, COUNT, RSV0, OP written out from R80 and R84 -/

theorem test_decode_nop : decode 0b0000000000000000_00000000_0000_0000 = .ok .nop := by decide
theorem test_decode_alphaDef : decode 0b0000000000000000_00000000_0000_0001 = .ok .alphaDef := by decide
theorem test_decode_alphaLoad : decode 0b0000000000000000_00111110_0000_0010 = .ok (.alphaLoad 62) := by decide
theorem test_decode_alphaFwd : decode 0b0000000000000000_00000000_0000_0011 = .ok .alphaFwd := by decide
theorem test_decode_alphaRev : decode 0b0000000000000000_00000000_0000_0100 = .ok .alphaRev := by decide
theorem test_decode_lenEnc : decode 0b0000000000000000_00000000_0000_0101 = .ok .lenEnc := by decide
theorem test_decode_lenByte : decode 0b0000000000000000_00000000_0000_0110 = .ok .lenByte := by decide
theorem test_decode_encBlk : decode 0b0000000000000000_00000011_0000_1000 = .ok (.encBlk 3) := by decide
theorem test_decode_decBlk : decode 0b0000000000000000_00001011_0000_1001 = .ok (.decBlk 11) := by decide

/-- W2, W5 to W12, W16. -/
theorem test_decode_rejects_by_name :
    decode 0x00000100 = .error .countRange ∧ decode 0x00000007 = .error .reservedOp ∧
    decode 0x0000000A = .error .reservedOp ∧ decode 0x0000000F = .error .reservedOp ∧
    decode 0x00000010 = .error .reservedBits ∧ decode 0x00010000 = .error .reservedBits ∧
    decode 0x80000008 = .error .reservedBits ∧ decode 0x00000908 = .error .countRange ∧
    decode 0x00000C09 = .error .countRange ∧ decode 0x00000103 = .error .countRange := by decide

/-- The example words of R84. -/
theorem test_encode_is_the_table_word :
    encode (.encBlk 8) = 0x00000808 ∧ encode (.decBlk 5) = 0x00000509 ∧ encode (.alphaLoad 62) = 0x00003E02 ∧
    encode .lenByte = 0x00000006 := by decide

theorem test_decodeTableWord :
    decodeTableWord 32 0x00000308 = some (.encBlk 3) ∧ decodeTableWord 32 0x100000308 = none ∧
    decodeTableWord 32 0x00000007 = none := by decide

/-! ## Helpers -/

/-- Reset, with these turns to come. -/
def turns (a : List Turn) : State := { State.reset with agenda := a }

/-- The command word `w` in flight, with these turns to come. -/
def flying (w : Word) (a : List Turn) : State :=
  { State.reset with pend := w, status := { State.reset.status with busy := true }, agenda := a }

/-- The state after a command; every command answers a next state. -/
def after (i : Instr) (s : State) : State :=
  match exec i s with
  | .next t => t
  | .fault _ => s
  | .refused _ => s

/-- The state after `k` steps. -/
def run (k : Nat) (s : State) : State := (runSteps k s).getD s

theorem exec_after (i : Instr) (s : State) : exec i s = .next (after i s) := by
  rw [after, exec_eq_commit]

theorem step_run (s : State) : step s = .next (run 1 s) := by
  obtain ⟨t, h⟩ := step_next s
  rw [run, runSteps, h]; rfl

def operandState (v : Word) : State := { State.reset with operand := v }
def blockState (l : List Byte) : State := { State.reset with dbuf := Vector.ofFn fun i => l[i.val]?.getD 0 }
def symbolState (strict : Bool) (l : List Lane) : State :=
  { State.reset with ctrl := { strict := strict, ie := false }, sym := Vector.ofFn fun i => l[i.val]?.getD 0 }
def stageState (l : List Byte) : State := { State.reset with stage := Vector.ofFn fun i => l[i.val]?.getD 0 }
def statusWord (s : State) : Word := memRead 0x00C s

/-! ## The commands, from the vectors of 95_test_vectors.md -/

/-- NOP after an error (R191): STATUS = 0x00000002. -/
theorem test_nop : statusWord (after .nop { operandState 0 with
    status := { State.reset.status with ecode := .lenInvalid, lastop := 6 } }) = 0x00000002 := by decide +kernel

/-- The example of R102, from other tables. -/
theorem test_alphaDef :
    (after .alphaDef { State.reset with fwd := Vector.replicate 62 1, rev := Vector.replicate 128 0 }).fwd[49] = 0x6E ∧
    (after .alphaDef { State.reset with fwd := Vector.replicate 62 1, rev := Vector.replicate 128 0 }).rev[0x6E] = 49 := by
  decide +kernel

/-- A2: the default alphabet reversed. -/
theorem test_alphaLoad_reversed :
    let t := after (.alphaLoad 62) { stageState defaultFwd.toList.reverse with pend := 0x3E02 }
    t.result = 62 ∧ statusWord t = 0x00002002 ∧ t.fwd[0] = 0x7A ∧ t.rev[0x7A] = 0 ∧ t.rev[0x30] = 61 := by decide +kernel

/-- A6: a zero byte at index 3 wins over a duplicate at index 7, and A9: the later of two equal bytes is reported. -/
theorem test_alphaLoad_fails :
    statusWord (after (.alphaLoad 62) { stageState ((defaultFwd.toList.set 3 0).set 7 0x31) with pend := 0x3E02 })
      = 0x00032306 ∧
    statusWord (after (.alphaLoad 62) { stageState (defaultFwd.toList.set 61 0x30) with pend := 0x3E02 }) = 0x003D2506 := by
  decide +kernel

/-- A17, A18. -/
theorem test_alphaFwd : (after .alphaFwd (operandState 0x3D)).result = 0x7A ∧
    (after .alphaFwd (operandState 0x3E)).status.ecode = .range := by decide +kernel

/-- A26, A31. -/
theorem test_alphaRev : (after .alphaRev (operandState 0x7A)).result = 0x3D ∧
    (after .alphaRev (operandState 0x80)).result = 0xFF := by decide +kernel

/-- L14, L15. -/
theorem test_lenEnc_limit : (after .lenEnc (operandState 0x5D1745D0)).result = 2147483646 ∧
    (after .lenEnc (operandState 0x5D1745D1)).status.ecode = .range := by decide +kernel

/-- L18: a negative length. -/
theorem test_lenEnc_negative : (after .lenEnc (operandState 0xFFFFFFFF)).status.ecode = .range := by decide +kernel

/-- L44, L43. -/
theorem test_lenByte : (after .lenByte (operandState 0x7FFFFFFE)).result = 1561806288 ∧
    (after .lenByte (operandState 41)).status.ecode = .lenInvalid := by decide +kernel

/-- L46: a negative length. -/
theorem test_lenByte_negative : (after .lenByte (operandState 0x80000000)).status.ecode = .range := by decide +kernel

/-- E26: "123" gives "0DWjr", and the bytes past index 2 are not read. -/
theorem test_encBlk_3 :
    (after (.encBlk 3) (blockState [0x31, 0x32, 0x33, 0xAA, 0xBB, 0xCC, 0xDD, 0xEE])).sym.toList =
      [0x30, 0x44, 0x57, 0x6A, 0x72, 0, 0, 0, 0, 0, 0] := by decide +kernel

/-- E23: the largest value gives "LygHa16AHYF". -/
theorem test_encBlk_8 : (after (.encBlk 8) (blockState (List.replicate 8 0xFF))).sym.toList =
    [0x4C, 0x79, 0x67, 0x48, 0x61, 0x31, 0x36, 0x41, 0x48, 0x59, 0x46] := by decide +kernel

/-- D26: "zzzzzzzzzzz" is truncated. -/
theorem test_decBlk_truncates :
    let t := after (.decBlk 11) { symbolState false (List.replicate 11 0x7A) with pend := 0xB09 }
    t.dbuf.toList = [0xD2, 0x27, 0x00, 0x3D, 0x8D, 0x2A, 0xF7, 0xFF] ∧ t.result = 8 ∧ statusWord t = 0x00009012 := by
  decide +kernel

/-- D33: the first bad lane wins; D9: STRICT fails "zz" with NONCANON. -/
theorem test_decBlk_fails :
    statusWord (after (.decBlk 7) { symbolState false [0x30, 0x30, 0x20, 0x30, 0x30, 0x130, 0x30] with pend := 0x709 })
      = 0x00029706 ∧
    statusWord (after (.decBlk 2) { symbolState true [0x7A, 0x7A] with pend := 0x209 }) = 0x00009A16 := by decide +kernel

/-! ## Lifecycle, bus and reset -/

/-- The command after withFetchWord runs in the very next step; W14. -/
theorem test_withFetchWord : statusWord (run 1 (State.reset.withFetchWord 32 0x808)) = 0x00008002 ∧
    (run 1 (State.reset.withFetchWord 32 0x808)).result = 11 := by decide +kernel

/-- B2: writes while BUSY are dropped. -/
theorem test_busy_drops_writes :
    let s := run 3 { flying 5 [.hostWrite (.window 0x010) 4 99, .hostWrite (.window 0x008) 4 6, .block] with operand := 5 }
    (s.operand, s.result, statusWord s) = (5, 7, 0x0000500A) := by decide +kernel

/-- B5: reset aborts the command in flight. -/
theorem test_reset_aborts : statusWord (run 1 (flying 0x808 [.assertReset])) = 0 ∧
    (run 1 (flying 0x808 [.assertReset])).sym = Vector.replicate 11 0 := by decide +kernel

/-- B6, B7. -/
theorem test_window_words : memRead 0x0F8 State.reset = 0x78777675 ∧ memRead 0x0FC State.reset = 0x00007A79 ∧
    memRead 0x130 State.reset = 0x03020100 ∧ memRead 0x178 State.reset = 0xFF3D3C3B := by decide +kernel

/-- B9, B10: lane 11 and the reserved bits of CTRL are not stored. -/
theorem test_reserved_bits : memRead 0x054 (memWrite 0x054 0xFFFF0041 State.reset) = 0x41 ∧
    memRead 0x004 (memWrite 0x004 0xFFFFFFFF State.reset) = 3 := by decide +kernel

/-- B8: a byte access gets the error response. -/
theorem test_byte_access : (run 1 (turns [.hostRead (.window 2) 1])).resp = some (.read true 0) := by decide +kernel

/-- R63 and R61 hold while reset is asserted: the error response to a byte access, OK at a reserved offset. -/
theorem test_response_in_reset :
    (run 2 (turns [.assertReset, .hostWrite (.window 0x010) 1 5])).resp = some (.write true) ∧
    (run 2 (turns [.assertReset, .hostRead (.window 0x018) 4])).resp = some (.read false 0) := by decide +kernel

/-! ## Witnesses: each meets the hypotheses of the statement it names -/

/-- Reset asserted over a command in flight, the block's turn under reset with and without a turn waiting, and the release. -/
theorem witness_AssertedResetLoadsTheResetState :
    let r (a : List Turn) : State := { flying 0x808 a with resetLine := true }
    (flying 0x808 [.assertReset, .block]).agenda = .assertReset :: [.block] ∧
    (r []).resetLine = true ∧ (r []).agenda = [] ∧ (r [.block]).resetLine = true ∧ (r [.block]).agenda = .block :: [] ∧
    (r [.releaseReset]).agenda = .releaseReset :: [] := by decide +kernel

theorem witness_AccessesDuringResetHaveNoEffect :
    let s : State := { turns [.hostRead (.window 0x1FC) 4] with resetLine := true }
    let u : State := { turns [.hostWrite (.window 0x008) 4 8] with resetLine := true }
    s.resetLine = true ∧ (Turn.hostRead (.window 0x1FC) 4).isAccess = true ∧ s.agenda = .hostRead (.window 0x1FC) 4 :: [] ∧
    (BusAddr.window 0x1FC).offset? = some 0x1FC ∧ 0x1FC % 4 = 0 ∧ ReservedOffset 0x1FC ∧
    (BusAddr.window 0x1FF).offset? = some 0x1FF ∧ 0x1FF % 4 ≠ 0 ∧
    u.resetLine = true ∧ (Turn.hostWrite (.window 0x008) 4 8).isAccess = true ∧
    u.agenda = .hostWrite (.window 0x008) 4 8 :: [] ∧ (BusAddr.window 0x008).offset? = some 0x008 := by decide +kernel

theorem witness_DecodeOfEncodeGivesTheCommandBack :
    Instr.wf .nop = true ∧ Instr.wf (.alphaLoad 255) = true ∧ Instr.wf (.encBlk 8) = true ∧ Instr.wf (.decBlk 11) = true := by
  decide

theorem witness_DecodedWordIsTheCommandsEncoding : decode 0x00000B09 = .ok (.decBlk 11) := by decide

/-- One word for each clause, at the boundary of its range. -/
theorem witness_DecodeFollowsTheOpcodeMap :
    (0x00000010 : Word).toNat / 16 % 16 ≠ 0 ∧ (0x00010000 : Word).toNat / 65536 ≠ 0 ∧
    (0x00000007 : Word).toNat % 16 = 0x7 ∧ 0xA ≤ (0x0000000A : Word).toNat % 16 ∧
    (0x00000106 : Word).toNat % 16 ≤ 6 ∧ (0x00000106 : Word).toNat / 256 % 256 ≠ 0 ∧
    (0x00000908 : Word).toNat % 16 = 0x8 ∧ 8 < (0x00000908 : Word).toNat / 256 % 256 ∧
    (0x00000C09 : Word).toNat % 16 = 0x9 ∧ 11 < (0x00000C09 : Word).toNat / 256 % 256 ∧
    (0x0000FF02 : Word).toNat % 16 = 0x2 ∧
    (∀ n ∈ [0x0, 0x1, 0x3, 0x4, 0x5, 0x6, 0xFF02, 0x808, 0xB09],
      ¬((BitVec.ofNat 32 n).toNat / 16 % 16 ≠ 0 ∨ (BitVec.ofNat 32 n).toNat / 65536 ≠ 0)) ∧
    (∀ n ∈ [0x0, 0x1, 0x3, 0x4, 0x5, 0x6], (BitVec.ofNat 32 n).toNat / 256 % 256 = 0) ∧
    (0x00000808 : Word).toNat / 256 % 256 ≤ 8 ∧ (0x00000B09 : Word).toNat / 256 % 256 ≤ 11 := by decide +kernel

theorem witness_StepRunsTheDecodedCommand :
    (flying 0x308 []).InFlight ∧ decode (flying 0x308 []).pend = .ok (.encBlk 3) ∧ (flying 0x308 []).agenda = [] ∧
    (flying 0x308 [.block]).InFlight ∧ (flying 0x308 [.block]).agenda = .block :: [] ∧
    (turns []).Idle ∧ (turns []).agenda = [] ∧ (turns [.block]).Idle ∧ (turns [.block]).agenda = .block :: [] := by decide +kernel

theorem witness_AcceptSetsPendBusyAndDoneOnly :
    let s := turns [.hostWrite (.window 0x008) 4 0x308]
    let b := flying 0 [.hostWrite (.window 0x008) 4 0x308]
    (BusAddr.window 0x008).offset? = some 0x008 ∧
    s.resetLine = false ∧ s.agenda = .hostWrite (.window 0x008) 4 0x308 :: [] ∧ s.status.busy = false ∧
    b.resetLine = false ∧ b.agenda = .hostWrite (.window 0x008) 4 0x308 :: [] ∧ b.status.busy = true := by decide +kernel

theorem witness_IllegalWordCommitsIllegal :
    (flying 0x7 []).InFlight ∧ decode (flying 0x7 []).pend = .error .reservedOp ∧ (flying 0x7 []).agenda = [] ∧
    (flying 0x7 [.block]).InFlight ∧ (flying 0x7 [.block]).agenda = .block :: [] := by decide +kernel

theorem witness_FailedCommandChangesNoBufferAndNoTable :
    exec .alphaFwd (operandState 62) = .next (after .alphaFwd (operandState 62)) ∧
    (after .alphaFwd (operandState 62)).status.ecode ≠ .ok := ⟨rfl, by decide +kernel⟩

theorem witness_CommandInFlightCompletes : (flying 0x808 [.hostRead (.window 0x00C) 4]).InFlight := by decide +kernel

theorem witness_OutcomeIsIndependentOfTheSchedule :
    (flying 0x808 []).InFlight ∧
    ∀ a ∈ [Turn.hostWrite (.window 0x020) 4 1, .hostRead (.window 0x00C) 4, .hostWrite (.window 0x00C) 4 8],
      a.isAccess = true := by decide +kernel

/-- Accept, commit, reset and a block turn while reset is asserted. -/
theorem witness_BusyIsSetByAcceptAndClearedByCommitOrReset :
    let s := turns [.hostWrite (.window 0x008) 4 0x308]
    let r : State := { flying 0 [] with resetLine := true }
    step s = .next (run 1 s) ∧ s.status.busy = false ∧ (run 1 s).status.busy = true ∧
    step (flying 0 [.block]) = .next (run 1 (flying 0 [.block])) ∧ (flying 0 [.block]).status.busy = true ∧
      (run 1 (flying 0 [.block])).status.busy = false ∧
    step (flying 0 [.assertReset]) = .next (run 1 (flying 0 [.assertReset])) ∧
      (run 1 (flying 0 [.assertReset])).status.busy = false ∧
    step r = .next (run 1 r) ∧ r.status.busy = true ∧ (run 1 r).status.busy = false := by
  simp only [step_run, true_and]; decide +kernel

theorem witness_ReadReturnsTheWordAndChangesNothing :
    let s := turns [.hostRead (.window 0x1FC) 4]
    s.resetLine = false ∧ 0x1FC % 4 = 0 ∧ (BusAddr.window 0x1FC).offset? = some 0x1FC ∧
    s.agenda = .hostRead (.window 0x1FC) 4 :: [] := by decide +kernel

/-- A byte access, a misaligned word, and the first offset outside the window. -/
theorem witness_UnsupportedAccessHasNoEffect :
    (BusAddr.window 0x1FF).offset? = some 0x1FF ∧ (1 ≠ 4 ∨ 0x1FF % 4 ≠ 0) ∧ (4 ≠ 4 ∨ 0x1FF % 4 ≠ 0) ∧
    (BusAddr.window 0x200).offset? = none ∧
    (turns [.hostRead (.window 0x1FF) 1]).agenda = .hostRead (.window 0x1FF) 1 :: [] ∧
    (turns [.hostWrite (.window 0x200) 4 1]).agenda = .hostWrite (.window 0x200) 4 1 :: [] := by decide +kernel

/-- The bus address just after the window. -/
theorem witness_WindowIsTheBytesFromBaseAddr : ∀ a ≤ 0x1FF, Config.baseAddr + 0x200 ≠ Config.baseAddr + a := by
  intro a h; omega

theorem witness_WindowWordsFollowTheRegisterMap :
    0x018 % 4 = 0 ∧ ReservedOffset 0x018 ∧ ReservedOffset 0x03C ∧ ReservedOffset 0x058 ∧ ReservedOffset 0x1FC ∧
    ¬ReservedOffset 0x020 ∧ ¬ReservedOffset 0x054 ∧ ¬ReservedOffset 0x17C := by decide

theorem witness_IdleWriteStoresItsWordOnly :
    (∀ a ∈ [0x004, 0x010, 0x020, 0x024, 0x040, 0x054, 0x080, 0x0BC],
      InputOffset a ∧ a ≠ 0x008 ∧ (BusAddr.window a).offset? = some a ∧
      (turns [.hostWrite (.window a) 4 0xFFFF0041]).Idle ∧
      (turns [.hostWrite (.window a) 4 0xFFFF0041]).agenda = .hostWrite (.window a) 4 0xFFFF0041 :: []) := by decide +kernel

theorem witness_BusyDropsInputWritesAndSetsWerr :
    (∀ a ∈ [0x004, 0x008, 0x010, 0x020, 0x024, 0x040, 0x054, 0x080, 0x0BC],
      InputOffset a ∧ (BusAddr.window a).offset? = some a ∧ (flying 0 [.hostWrite (.window a) 4 1]).InFlight ∧
      (flying 0 [.hostWrite (.window a) 4 1]).agenda = .hostWrite (.window a) 4 1 :: []) := by decide +kernel

theorem witness_WritesToReadOnlyOffsetsAreIgnored :
    (∀ a ∈ [0x000, 0x014, 0x0C0, 0x17C, 0x018, 0x1FC],
      a % 4 = 0 ∧ (a = 0x000 ∨ a = 0x014 ∨ (0x0C0 ≤ a ∧ a < 0x180) ∨ ReservedOffset a) ∧
      (BusAddr.window a).offset? = some a ∧ (flying 0 [.hostWrite (.window a) 4 1]).resetLine = false ∧
      (flying 0 [.hostWrite (.window a) 4 1]).agenda = .hostWrite (.window a) 4 1 :: []) := by decide +kernel

theorem witness_StatusWriteClearsDoneAndWerrOnly :
    let s := flying 0 [.hostWrite (.window 0x00C) 4 0xA]
    s.resetLine = false ∧ (BusAddr.window 0x00C).offset? = some 0x00C ∧ s.agenda = .hostWrite (.window 0x00C) 4 0xA :: [] := by
  decide +kernel

/-- A clearing STATUS write, a reset, and a dropped write, at an input offset. -/
theorem witness_WerrIsSticky :
    let s : State := dropWrite (flying 0 [.hostWrite (.window 0x00C) 4 8])
    let r : State := dropWrite (flying 0 [.assertReset])
    let d := flying 0 [.hostWrite (.window 0x010) 4 1]
    step s = .next (run 1 s) ∧ s.status.werr = true ∧ (run 1 s).status.werr = false ∧
    step r = .next (run 1 r) ∧ r.status.werr = true ∧ (run 1 r).status.werr = false ∧
    step d = .next (run 1 d) ∧ d.status.werr = false ∧ (run 1 d).status.werr = true ∧
      d.InFlight ∧ (BusAddr.window 0x010).offset? = some 0x010 ∧ InputOffset 0x010 ∧
      (BusAddr.window 0x00C).offset? = some 0x00C ∧ (8 : Word).getLsbD 3 = true := by
  simp only [step_run, true_and]; decide +kernel

theorem witness_ReadsWhileBusyReturnTheStateAtAccept :
    State.reset.Idle ∧
    ∀ a ∈ [Turn.hostWrite (.window 0x014) 4 1, .hostRead (.window 0x014) 4, .hostWrite (.window 0x010) 4 99],
      a.isAccess = true := by decide +kernel

theorem witness_IrqFollowsDoneAndIe : State.reset.status.busy = false ∧ (2 : Word).getLsbD 1 = true := by decide +kernel

theorem reset_alphabetInv : State.reset.AlphabetInv := by decide +kernel

/-- A run of one step, the accept of ALPHA.DEF. -/
theorem witness_ReachableStatesHoldAValidAlphabet :
    let s : State := { State.reset with agenda := [.hostWrite (.window 0x008) 4 1, .block] }
    runSteps 1 s = some (run 1 s) := by
  simp only [runSteps, step_run]

theorem witness_StepKeepsTheAlphabetInvariant :
    let s := State.reset.withFetchWord 32 1
    s.AlphabetInv ∧ step s = .next (run 1 s) := ⟨reset_alphabetInv, step_run _⟩

theorem witness_TablesChangeOnlyByLoadOrReset :
    let s := (stageState defaultFwd.toList.reverse).withFetchWord 32 0x3E02
    step s = .next (run 1 s) ∧ (run 1 s).fwd ≠ s.fwd ∧ (run 1 s).rev ≠ s.rev := by
  refine ⟨step_run _, ?_⟩; decide +kernel

theorem witness_StepKeepsStatusFittingTogether :
    let s := State.reset.withFetchWord 32 0xB09
    s.StatusInv ∧ step s = .next (run 1 s) := by
  refine ⟨?_, step_run _⟩; decide +kernel

theorem witness_AlphaLoadCommitsAValidAlphabet : ∀ i < 62, StageGood i (stageState defaultFwd.toList) := by decide +kernel

/-- A length of 61, and the first fault at index 0, 40 and 61 (A4 to A9). -/
theorem witness_AlphaLoadReportsTheFirstFault :
    (61 : BitVec 8) ≠ 62 ∧
    ¬StageGood 0 State.reset ∧
    (∀ h < 40, StageGood h (stageState (defaultFwd.toList.set 40 0x80))) ∧
      ¬StageGood 40 (stageState (defaultFwd.toList.set 40 0x80)) ∧
    (∀ h < 61, StageGood h (stageState (defaultFwd.toList.set 61 0x30))) ∧
      ¬StageGood 61 (stageState (defaultFwd.toList.set 61 0x30)) := by decide +kernel

theorem witness_BuildRevInvertsAValidAlphabet : ValidAlphabet defaultFwd := reset_alphabetInv.1

theorem witness_AlphaFwdLooksUpTheSymbol :
    (operandState 61).operand.toNat = (61 : Fin 62).val ∧ 61 < (operandState 62).operand.toNat := by decide +kernel

theorem witness_AlphaRevLooksUpTheDigit :
    (operandState 127).operand.toNat = (127 : Fin 128).val ∧ 127 < (operandState 128).operand.toNat := by decide +kernel

/-- L14, L15. -/
theorem witness_LenEncRoundsUpElevenEighths :
    (operandState 0x5D1745D0).operand.toNat ≤ 1561806288 ∧ 11 * (operandState 0x5D1745D0).operand.toNat ≤ 8 * 2147483646 ∧
    8 * 2147483646 < 11 * (operandState 0x5D1745D0).operand.toNat + 8 ∧
    1561806288 < (operandState 0x5D1745D1).operand.toNat := by decide +kernel

/-- L46, L45, L44. -/
theorem witness_LenByteInvertsValidLengths :
    0x80000000 ≤ (operandState 0x80000000).operand.toNat ∧ (operandState 0x7FFFFFFF).operand.toNat < 0x80000000 ∧
    (operandState 0x7FFFFFFF).operand.toNat = 11 * 195225786 + 1 ∧
    (operandState 0x7FFFFFFE).operand.toNat = 11 * 195225786 + 0 ∧
    ((0, 0) : Nat × Nat) ∈ ([(0, 0), (2, 1), (3, 2), (5, 3), (6, 4), (7, 5), (9, 6), (10, 7)] : List (Nat × Nat)) ∧ 7 ≤ 7 := by
  decide +kernel

theorem witness_LengthCommandsInvertEachOther :
    (operandState 0x5D1745D0).operand.toNat ≤ 1561806288 ∧
    exec .lenByte (operandState 0x7FFFFFFE) = .next (after .lenByte (operandState 0x7FFFFFFE)) ∧
    (after .lenByte (operandState 0x7FFFFFFE)).status.ecode = .ok ∧ 0 < 1 := by
  simp only [exec_after, true_and]; decide +kernel

theorem witness_SymbolCountsAreTheSmallest :
    1 ≤ (1 : Fin 9).val ∧ 1 ≤ (8 : Fin 9).val ∧ ∀ j ∈ [(1 : Fin 12), 4, 8], j.val ∉ [0, 2, 3, 5, 6, 7, 9, 10, 11] := by decide

theorem witness_EncBlkWritesTheDigitsOfTheValue : (0 : BitVec 8).toNat ≤ 8 ∧ (8 : BitVec 8).toNat ≤ 8 := by decide

theorem witness_EncoderLosesNoValue :
    (8 : BitVec 8).toNat ≤ 8 ∧ be (dataBytes (8 : BitVec 8).toNat (blockState (List.replicate 8 0xFF))) = 2 ^ 64 - 1 := by
  decide +kernel

/-- E26. -/
theorem witness_EncBlkDependsOnItsBlockAndFwdOnly :
    let s := blockState [0x31, 0x32, 0x33]
    let u := blockState [0x31, 0x32, 0x33, 0xAA]
    (3 : BitVec 8).toNat ≤ 8 ∧ s.fwd = u.fwd ∧ (∀ i < (3 : BitVec 8).toNat, s.dbuf[i]? = u.dbuf[i]?) ∧ s.dbuf ≠ u.dbuf := by
  decide +kernel

/-- 0F 03 and 0F 04 with n = 2, and the value 62^7 - 1 with n = 7 (95_test_vectors.md 1.5). -/
theorem witness_IncrementChangesTheTrailingSymbols :
    (∀ p ∈ ([(2, 2, [0x0F, 0x03], [0x0F, 0x04]),
        (8, 7, [0, 0, 0x03, 0x33, 0xF0, 0x96, 0x6F, 0x7F], [0, 0, 0x03, 0x33, 0xF0, 0x96, 0x6F, 0x80])] :
        List (Nat × Nat × List Byte × List Byte)),
      1 ≤ p.1 ∧ p.1 ≤ 8 ∧ (blockState p.2.2.2).fwd = (blockState p.2.2.1).fwd ∧
      (∀ i < p.1, i + 1 < p.1 → (blockState p.2.2.2).dbuf[i]? = (blockState p.2.2.1).dbuf[i]?) ∧
      ((blockState p.2.2.1).dbuf[p.1 - 1]?.getD 0).toNat < 255 ∧
      (blockState p.2.2.2).dbuf[p.1 - 1]? = some ((blockState p.2.2.1).dbuf[p.1 - 1]?.getD 0 + 1) ∧
      blockValue p.1 (blockState p.2.2.1) % 62 ^ p.2.1 = 62 ^ p.2.1 - 1 ∧
      blockValue p.1 (blockState p.2.2.1) % 62 ^ (p.2.1 + 1) ≠ 62 ^ (p.2.1 + 1) - 1) ∧
    (blockState [0x0F, 0x03]).AlphabetInv := by
  refine ⟨?_, reset_alphabetInv⟩; decide +kernel

/-- The block 0x31, whose digits are 0 and 49 (95_test_vectors.md 1.6). -/
theorem witness_AlphabetsAgreeExactlyOnTheDigitsUsed :
    let s := blockState [0x31]
    (1 : BitVec 8).toNat ≤ 8 ∧ ({ s with fwd := Vector.replicate 62 1 } : State).dbuf = s.dbuf ∧ 0 < encLen 1 ∧
    (49 : Fin 62).val = blockValue 1 s / 62 ^ 0 % 62 ∧ (0 : Fin 62).val = blockValue 1 s / 62 ^ 1 % 62 := by decide +kernel

/-- "LygHa16AHYF" under STRICT (D23), and "LygHa16AHYG" without (D24). -/
theorem witness_DecBlkWritesTheBytesOfTheValue :
    let s := symbolState true [0x4C, 0x79, 0x67, 0x48, 0x61, 0x31, 0x36, 0x41, 0x48, 0x59, 0x46]
    let u := symbolState false [0x4C, 0x79, 0x67, 0x48, 0x61, 0x31, 0x36, 0x41, 0x48, 0x59, 0x47]
    8 ≤ 8 ∧ (11 : BitVec 8).toNat = (11 * 8 + 7) / 8 ∧ (∀ i < 11, LaneValid i s) ∧ symbolValue 11 s < 256 ^ 8 ∧
    (∀ i < 11, LaneValid i u) ∧ 256 ^ 8 ≤ symbolValue 11 u ∧ u.ctrl.strict = false := by decide +kernel

/-- D25. -/
theorem witness_StrictDecodeFailsWithNonCanon :
    let s := symbolState true [0x4C, 0x79, 0x67, 0x48, 0x61, 0x31, 0x36, 0x41, 0x48, 0x59, 0x47]
    8 ≤ 8 ∧ (11 : BitVec 8).toNat = (11 * 8 + 7) / 8 ∧ (∀ i < 11, LaneValid i s) ∧ 256 ^ 8 ≤ symbolValue 11 s ∧
    s.ctrl.strict = true := by decide +kernel

theorem witness_DecBlkRejectsInvalidLengths : ∀ j ∈ ([1, 4, 8] : List (BitVec 8)), j = 1 ∨ j = 4 ∨ j = 8 := by simp

/-- D33 and D34: lane 2 is not in the alphabet; lane 5 is above 127. -/
theorem witness_DecBlkReportsTheFirstBadSymbol :
    let s := symbolState false [0x30, 0x30, 0x20, 0x30, 0x30, 0x130, 0x30]
    let u := symbolState false [0x30, 0x30, 0x30, 0x30, 0x30, 0x130, 0x20]
    5 ≤ 8 ∧ (7 : BitVec 8).toNat = (11 * 5 + 7) / 8 ∧ 2 < 7 ∧ (∀ h < 2, LaneValid h s) ∧ ¬LaneValid 2 s ∧
    5 < 7 ∧ (∀ h < 5, LaneValid h u) ∧ ¬LaneValid 5 u ∧ (u.sym[5]?.getD 0).toNat > 127 := by decide +kernel

/-- "123" encoded (E26), then decoded from the state the encoder left with DBUF cleared. -/
theorem witness_DecodeOfEncodedBlockGivesTheBlockBack :
    let s := blockState [0x31, 0x32, 0x33]
    let t := after (.encBlk 3) s
    let u : State := { t with dbuf := Vector.replicate 8 0 }
    s.AlphabetInv ∧ (3 : BitVec 8).toNat ≤ 8 ∧ (5 : BitVec 8).toNat = encLen (3 : BitVec 8).toNat ∧
    exec (.encBlk 3) s = .next t ∧ u.rev = t.rev ∧ ∀ p : Fin 11, p.val < (5 : BitVec 8).toNat → u.sym[p] = t.sym[p] :=
  ⟨reset_alphabetInv, by decide, by decide, exec_after _ _, rfl, fun _ _ => rfl⟩

/-- "0DWjr" is an encoder output; "zz" is made of valid symbols and is none: its value 3843 does not fit one byte (R176). -/
theorem witness_StrictDecodeAcceptsExactlyEncoderOutputs :
    let s := symbolState true [0x30, 0x44, 0x57, 0x6A, 0x72]
    let u := symbolState true [0x7A, 0x7A]
    s.AlphabetInv ∧ s.ctrl.strict = true ∧ (3 : BitVec 8).toNat ≤ 8 ∧ (5 : BitVec 8).toNat = encLen (3 : BitVec 8).toNat ∧
    (∃ t, exec (.encBlk 3) { s with dbuf := (blockState [0x31, 0x32, 0x33]).dbuf } = .next t ∧
      ∀ p : Fin 11, p.val < (5 : BitVec 8).toNat → t.sym[p] = s.sym[p]) ∧
    u.AlphabetInv ∧ (2 : BitVec 8).toNat = encLen (1 : BitVec 8).toNat ∧ (∀ i < 2, LaneValid i u) ∧
    symbolValue 2 u = 3843 := by
  refine ⟨reset_alphabetInv, rfl, by decide, by decide, ⟨_, exec_after _ _, ?_⟩, reset_alphabetInv, by decide, ?_⟩ <;>
    decide +kernel

theorem witness_ScalarCommandsStoreNothing :
    ∀ i ∈ [Instr.nop, .alphaFwd, .alphaRev, .lenEnc, .lenByte],
      i = .nop ∨ i = .alphaFwd ∨ i = .alphaRev ∨ i = .lenEnc ∨ i = .lenByte := by decide

theorem witness_AlphabetLoadsStoreToTheTablesOnly : ∃ n, Instr.alphaLoad 62 = .alphaLoad n := ⟨62, rfl⟩

theorem witness_EncBlkStoresToItsLanesOnly :
    (8 : BitVec 8).toNat ≤ 8 ∧ ¬(0x00C ≤ 0x058 ∧ 0x058 < 0x010) ∧ ¬(0x014 ≤ 0x058 ∧ 0x058 < 0x018) ∧
    ¬(0x040 ≤ 0x056 ∧ 0x056 < 0x040 + 2 * encLen 8) ∧ (0x040 ≤ 0x055 ∧ 0x055 < 0x040 + 2 * encLen 8) := by decide

theorem witness_DecBlkStoresToItsBytesOnly :
    8 ≤ 8 ∧ (11 : BitVec 8).toNat = (11 * 8 + 7) / 8 ∧ 0 ≤ 8 ∧ (0 : BitVec 8).toNat = (11 * 0 + 7) / 8 ∧
    ¬(0x00C ≤ 0x028 ∧ 0x028 < 0x010) ∧ ¬(0x020 ≤ 0x028 ∧ 0x028 < 0x020 + 8) := by decide

end Sys2Proof.Tests
end

/-! The flight of a command is bounded (00_scope.md R19): every step either ends it or uses up one waiting turn. -/

namespace Sys2Proof.Machine

/-- The variant behind R19: a turn that does not end the flight (a host access, or a release of reset) leaves the list of
waiting turns one shorter. -/
theorem step_ends_flight_or_uses_turn {s : State} (h : s.InFlight) :
    ∃ t, step s = .next t ∧ (t.status.busy = false ∨ t.InFlight ∧ ∃ a, s.agenda = a :: t.agenda) := by
  obtain ⟨hbusy, hline⟩ := h
  obtain ⟨t, ht⟩ := step_next s
  refine ⟨t, ht, ?_⟩
  cases step_cases ht with
  | reset rest _ heq => subst heq; exact .inl rfl
  | held hr => simp [hline] at hr
  | release rest ha heq => subst heq; exact .inr ⟨⟨hbusy, rfl⟩, _, ha⟩
  | idle _ hb => simp [hbusy] at hb
  | commit _ _ rest _ hc =>
    obtain ⟨o, ho, _⟩ := complete_eq_commit { s with agenda := rest }
    obtain rfl : t = commit o { s with agenda := rest } := by simpa [hc] using ho
    exact .inl (commit_busy o _)
  | nothing a rest _ ha r n heq => subst heq; exact .inr ⟨⟨hbusy, hline⟩, a, ha⟩
  | write ad v rest a ha =>
    obtain ⟨d, w, r, n, hstep, _⟩ := access_inFlight hbusy hline rfl ha
    rw [hstep] at ht
    cases ht
    exact .inr ⟨⟨hbusy, hline⟩, _, ha⟩

/-- Settles O13, by induction on the turns waiting. -/
theorem commandInFlightCompletes : Obligations.CommandInFlightCompletes := by
  intro s h
  obtain ⟨turns, hturns⟩ : ∃ turns, s.agenda = turns := ⟨_, rfl⟩
  induction turns generalizing s with
  | nil =>
    obtain ⟨t, ht, hdone | ⟨_, a, ha⟩⟩ := step_ends_flight_or_uses_turn h
    · exact ⟨1, t, by omega, runSteps_next ht 0, hdone⟩
    · simp [hturns] at ha
  | cons a rest ih =>
    obtain ⟨t, ht, hdone | ⟨hfly, b, hb⟩⟩ := step_ends_flight_or_uses_turn h
    · exact ⟨1, t, by omega, runSteps_next ht 0, hdone⟩
    · have hrest : t.agenda = rest := (List.cons.inj (hb.symm.trans hturns)).2
      obtain ⟨k, u, hk, hrun, hu⟩ := ih t hfly hrest
      exact ⟨k + 1, u, by simpa [hb] using hk, (runSteps_next ht k).trans hrun, hu⟩

end Sys2Proof.Machine

/-! The tables that a step leaves (10_state.md R38, R40): the alphabet invariant, step by step. -/

namespace Sys2Proof.Machine

/-- The symbol of a digit value, as a number (R45). -/
theorem defaultSymbol_toNat {d : Nat} (h : d < 62) :
    (defaultSymbol d).toNat =
      if d ≤ 9 then 0x30 + d else if d ≤ 35 then 0x41 + (d - 10) else 0x61 + (d - 36) := by
  unfold defaultSymbol
  split_ifs <;> exact Nat.mod_eq_of_lt (by omega)

theorem defaultFwd_toNat (d : Fin 62) :
    defaultFwd[d].toNat =
      if d.val ≤ 9 then 0x30 + d.val else if d.val ≤ 35 then 0x41 + (d.val - 10) else 0x61 + (d.val - 36) := by
  simpa [defaultFwd] using defaultSymbol_toNat d.isLt

theorem validAlphabet_defaultFwd : ValidAlphabet defaultFwd := by
  refine ⟨fun d => ?_, fun d e h => ?_⟩
  · rw [defaultFwd_toNat]
    split_ifs <;> omega
  · have hcodes := congrArg BitVec.toNat h
    rw [defaultFwd_toNat, defaultFwd_toNat] at hcodes
    split_ifs at hcodes <;> omega

/-- A valid alphabet has no two equal entries, as a list too. -/
theorem ValidAlphabet.nodup {f : Vector Byte 62} (h : ValidAlphabet f) : f.toList.Nodup := by
  rw [List.nodup_iff_injective_get]
  intro d e hde
  have hlen : f.toList.length = 62 := by simp
  have := h.2 (d.cast hlen) (e.cast hlen) (by simpa using hde)
  simpa [Fin.ext_iff] using this

/-- buildRev inverts a valid alphabet (R101). -/
theorem reverseOf_buildRev {f : Vector Byte 62} (h : ValidAlphabet f) : ReverseOf f (buildRev f) := by
  refine ⟨fun d => ?_, fun c hc => ?_⟩
  · have hd : d.val < f.toList.length := by simp
    have hcode : (f.toList[d.val]).toNat < 128 := by
      have := (h.1 d).2
      simp at this ⊢
      omega
    simpa [buildRev] using fillRev_of_mem f.toList 0 (Vector.replicate 128 Config.invalid) h.nodup d.val hd hcode
  · have hkeep : (buildRev f)[c.val]? = (Vector.replicate 128 Config.invalid)[c.val]? := by
      refine fillRev_of_notMem f.toList 0 _ c.val fun b hb => ?_
      obtain ⟨d, hd, rfl⟩ := List.getElem_of_mem hb
      simpa using hc ⟨d, by simpa using hd⟩
    simpa [Config.invalid] using hkeep

theorem alphabetInv_reset : State.reset.AlphabetInv :=
  ⟨validAlphabet_defaultFwd, reverseOf_buildRev validAlphabet_defaultFwd⟩

/-- An alphabet that passes the check of ALPHA.LOAD is valid (R100). -/
theorem validAlphabet_of_check {n : Nat} {f : Vector Byte 62} (h : Machine.validAlphabet n f = .ok ()) :
    ValidAlphabet f := by
  unfold validAlphabet at h
  split at h
  · cases h
  have hgood := checkSymbols_ok h
  have hne : ∀ d e : Fin 62, d < e → f[d] ≠ f[e] := fun d e hlt => by
    obtain ⟨-, -, -, hfresh⟩ := hgood e.val (by simp)
    simpa using hfresh d.val hlt
  refine ⟨fun d => ?_, fun d e heq => ?_⟩
  · obtain ⟨hzero, hascii, -⟩ := hgood d.val (by simp)
    simp only [Vector.getElem_toList] at hzero hascii
    refine ⟨Nat.pos_of_ne_zero fun h0 => hzero (BitVec.eq_of_toNat_eq h0), hascii⟩
  · rcases lt_trichotomy d e with hlt | rfl | hlt
    · exact absurd heq (hne d e hlt)
    · rfl
    · exact absurd heq.symm (hne e d hlt)

/-- Only ALPHA.DEF and a checked ALPHA.LOAD write tables (R103). -/
theorem outcomeOf_tables {i : Instr} {s : State} {f r tr} (h : outcomeOf i s = .ok ⟨.tables f, r, tr⟩) :
    (i = .alphaDef ∧ f = defaultFwd) ∨
    ∃ n, i = .alphaLoad n ∧ f = stagedSymbols s ∧ validAlphabet (countValue n) (stagedSymbols s) = .ok () := by
  cases i with
  | nop => cases h
  | alphaDef =>
    simp only [outcomeOf, performAlphaDef, Except.ok.injEq, Success.mk.injEq, Writes.tables.injEq] at h
    exact .inl ⟨rfl, h.1.symm⟩
  | alphaLoad n =>
    simp only [outcomeOf, performAlphaLoad] at h
    split at h
    · cases h
    · rename_i hcheck
      simp only [Except.ok.injEq, Success.mk.injEq, Writes.tables.injEq] at h
      exact .inr ⟨n, rfl, h.1.symm, hcheck⟩
  | alphaFwd => simp only [outcomeOf, performAlphaFwd] at h; split at h <;> cases h
  | alphaRev => simp only [outcomeOf, performAlphaRev] at h; split at h <;> simp at h
  | lenEnc => simp only [outcomeOf, lengthOutcome] at h; split at h <;> cases h
  | lenByte => simp only [outcomeOf, lengthOutcome] at h; split at h <;> cases h
  | encBlk k => simp only [outcomeOf, performEncBlk] at h; split at h <;> cases h
  | decBlk j =>
    simp only [outcomeOf, performDecBlk, outputBytes] at h
    repeat' split at h
    all_goals cases h

theorem validAlphabet_of_outcomeOf_tables {i : Instr} {s : State} {f r tr}
    (h : outcomeOf i s = .ok ⟨.tables f, r, tr⟩) : ValidAlphabet f := by
  obtain ⟨-, rfl⟩ | ⟨n, -, rfl, hcheck⟩ := outcomeOf_tables h
  · exact validAlphabet_defaultFwd
  · exact validAlphabet_of_check hcheck

/-- Completion leaves the state of a commit: of the decoded command's outcome, or of the ILLEGAL outcome (R192, R194). -/
theorem complete_cases {s t : State} (h : complete s = .next t) :
    ∃ o, t = commit o s ∧ ((∃ i, decode s.pend = .ok i ∧ o = outcomeOf i s) ∨ o = illegalOutcome) := by
  obtain ⟨o, ho, hfrom⟩ := complete_eq_commit s
  exact ⟨o, Host.Outcome.next.inj (h.symm.trans ho), hfrom.imp_right And.right⟩

/-- The two tables after a step: as before, or a valid alphabet with the reverse table built from it (R39). -/
theorem step_tables {s t : State} (h : step s = .next t) :
    (t.fwd = s.fwd ∧ t.rev = s.rev) ∨ (ValidAlphabet t.fwd ∧ t.rev = buildRev t.fwd) := by
  cases step_cases h with
  | reset _ _ heq => subst heq; exact .inr ⟨validAlphabet_defaultFwd, rfl⟩
  | held _ _ _ heq => subst heq; exact .inr ⟨validAlphabet_defaultFwd, rfl⟩
  | release _ _ heq => subst heq; exact .inl ⟨rfl, rfl⟩
  | idle _ _ _ _ heq => subst heq; exact .inl ⟨rfl, rfl⟩
  | commit _ _ rest _ hc =>
    obtain ⟨o, rfl, hfrom⟩ := complete_cases hc
    obtain hsame | ⟨f, r, tr, rfl, hfwd, hrev⟩ := commit_tables o { s with agenda := rest }
    · exact .inl hsame
    · obtain ⟨i, -, hi⟩ | hi := hfrom
      · rw [hfwd, hrev]
        exact .inr ⟨validAlphabet_of_outcomeOf_tables hi.symm, rfl⟩
      · cases hi
  | nothing _ _ _ _ _ _ heq => subst heq; exact .inl ⟨rfl, rfl⟩
  | write _ v rest a _ _ _ _ heq => subst heq; exact .inl (writeReg_tables (regAt a) v { s with agenda := rest })

/-- Settles O28, from the formula of the default alphabet. -/
theorem resetHoldsAValidAlphabet : Obligations.ResetHoldsAValidAlphabet := alphabetInv_reset

/-- Settles O29: a step leaves the tables, or loads a valid alphabet with the reverse table built from it. -/
theorem stepKeepsTheAlphabetInvariant : Obligations.StepKeepsTheAlphabetInvariant := by
  intro s t hinv h
  obtain ⟨hfwd, hrev⟩ | ⟨hvalid, hrev⟩ := step_tables h
  · unfold State.AlphabetInv
    rw [hfwd, hrev]
    exact hinv
  · unfold State.AlphabetInv
    rw [hrev]
    exact ⟨hvalid, reverseOf_buildRev hvalid⟩

end Sys2Proof.Machine

/-! What STATUS and RESULT say together (10_state.md R26, R29, R32, R34), step by step. -/

namespace Sys2Proof

theorem withoutCount_eq_ok {w : Word} {i j : Instr} : withoutCount w i = .ok j ↔ countField w = 0 ∧ i = j := by
  unfold withoutCount
  split <;> simp_all

theorem withCount_eq_ok {i j : Instr} : withCount i = .ok j ↔ i.wf = true ∧ i = j := by
  unfold withCount
  split <;> simp_all

theorem decodeOp_ok_opcode {w : Word} {op : Nat} {i : Instr} (h : decodeOp w op = .ok i) : i.opcode.toNat = op := by
  unfold decodeOp at h
  split at h <;> simp only [withoutCount_eq_ok, withCount_eq_ok, reduceCtorEq] at h
  all_goals
    obtain ⟨-, rfl⟩ := h
    rfl

/-- A word that decodes to a command has that command's OP (R85). -/
theorem decode_ok_opcode {w : Word} {i : Instr} (h : decode w = .ok i) : opField w = i.opcode := by
  unfold decode at h
  split at h
  · cases h
  · exact BitVec.eq_of_toNat_eq (decodeOp_ok_opcode h).symm

end Sys2Proof

namespace Sys2Proof.Machine

/-- What an error of a command with this OP may carry: the codes that the command raises, each with its index range and its
TRUNC (R29, R32, R200). -/
def ErrorFits (op : BitVec 4) (e : CmdError) : Prop :=
  match e.code with
  | .ok => False
  | .illegal => e.idx = 0 ∧ e.trunc = false
  | .cfgLength => op = 2 ∧ e.idx = 0 ∧ e.trunc = false
  | .cfgZero | .cfgNonAscii | .cfgDup => op = 2 ∧ e.idx.toNat ≤ 61 ∧ e.trunc = false
  | .symRange | .symInvalid => op = 9 ∧ e.idx.toNat ≤ 10 ∧ e.trunc = false
  | .lenInvalid => (op = 6 ∨ op = 9) ∧ e.idx = 0 ∧ e.trunc = false
  | .range => (op = 3 ∨ op = 5 ∨ op = 6) ∧ e.idx = 0 ∧ e.trunc = false
  | .nonCanon => op = 9 ∧ e.idx = 0 ∧ e.trunc = true

/-- What the outcome of a command with this OP may carry: TRUNC comes from DEC.BLK only. -/
def OutcomeFits (op : BitVec 4) : Except CmdError Success → Prop
  | .ok r => r.trunc = true → op = 9
  | .error e => ErrorFits op e

/-- A commit writes STATUS and RESULT whole, so they fit together when the outcome fits the OP in PEND. -/
theorem commit_statusInv {o : Except CmdError Success} {s : State} (h : OutcomeFits (opField s.pend) o) :
    (commit o s).StatusInv := by
  cases o with
  | ok r => rw [commit_ok]; simpa [State.StatusInv, Status.committed, OutcomeFits, opField] using h
  | error e =>
    obtain ⟨code, idx, trunc⟩ := e
    rw [commit_error]
    have h : ErrorFits (opField s.pend) ⟨code, idx, trunc⟩ := h
    cases code <;> simp_all [State.StatusInv, Status.committed, ErrorFits, opField]

/-- The alphabet check raises CFG_LENGTH, or one of the three codes that carry an index below 62 (R100). -/
theorem validAlphabet_error_fits {n : Nat} {f : Vector Byte 62} {e : CmdError} (h : validAlphabet n f = .error e) :
    ErrorFits 2 e := by
  unfold validAlphabet at h
  split at h
  · cases h
    exact ⟨rfl, rfl, rfl⟩
  · obtain ⟨j, -, hj, hidx, htrunc, hcode⟩ := checkSymbols_error h
    have hle : e.idx.toNat ≤ 61 := by simp at hj; simp [hidx]; omega
    obtain hc | hc | hc := hcode <;> simp [ErrorFits, hc, hle, htrunc]

/-- The decoder's loop raises SYM_RANGE or SYM_INVALID, with a lane number below 11 (R172). -/
theorem accumulate_error_fits {rev : Vector Byte 128} {v : Nat} {j : Nat} {s : State} {e : CmdError}
    (h : accumulate rev 0 v (symbolLanes j s) = .error e) : ErrorFits 9 e := by
  obtain ⟨p, -, hp, hidx, htrunc, hcode⟩ := accumulate_error h
  have hle : e.idx.toNat ≤ 10 := by simp [symbolLanes] at hp; simp [hidx]; omega
  obtain hc | hc := hcode <;> simp [ErrorFits, hc, hle, htrunc]

/-- COUNT is never a negative length, so DEC.BLK's length check raises LEN_INVALID only (R171). -/
theorem byteLenChecked_countWord_error_fits {j : BitVec 8} {e : CmdError}
    (h : byteLenChecked (countWord j) = .error e) : ErrorFits 9 e := by
  have hj := j.isLt
  rw [byteLenChecked_eq, countWord_toNat, if_neg (by omega)] at h
  split at h
  · cases h
    exact ⟨.inr rfl, rfl, rfl⟩
  · cases h

theorem illegalOutcome_fits (op : BitVec 4) : OutcomeFits op illegalOutcome := ⟨rfl, rfl⟩

/-- Every command's outcome fits its OP. -/
theorem outcomeOf_fits (i : Instr) (s : State) : OutcomeFits i.opcode (outcomeOf i s) := by
  cases i with
  | nop => exact nofun
  | alphaDef => exact nofun
  | alphaLoad n =>
    simp only [outcomeOf, performAlphaLoad]
    split
    · rename_i e he; exact validAlphabet_error_fits he
    · exact nofun
  | alphaFwd =>
    simp only [outcomeOf, performAlphaFwd]
    split
    · exact nofun
    · exact ⟨.inl rfl, rfl, rfl⟩
  | alphaRev =>
    simp only [outcomeOf, performAlphaRev]
    split <;> exact nofun
  | lenEnc =>
    rw [outcomeOf, encLenChecked_eq]
    split
    · exact nofun
    · exact ⟨.inr (.inl rfl), rfl, rfl⟩
  | lenByte =>
    rw [outcomeOf, byteLenChecked_eq]
    split
    · exact ⟨.inr (.inr rfl), rfl, rfl⟩
    · split
      · exact ⟨.inl rfl, rfl, rfl⟩
      · exact nofun
  | encBlk k =>
    simp only [outcomeOf, performEncBlk]
    split
    · exact nofun
    · exact illegalOutcome_fits _
  | decBlk j =>
    simp only [outcomeOf, performDecBlk]
    split
    · split
      · rename_i e he; exact byteLenChecked_countWord_error_fits he
      · split
        · rename_i e he; exact accumulate_error_fits he
        · unfold outputBytes
          split
          · exact ⟨rfl, rfl, rfl⟩
          · exact fun _ => rfl
    · exact illegalOutcome_fits _

/-- The commit of the command in flight leaves STATUS and RESULT fitting together. -/
theorem complete_statusInv {s t : State} (h : complete s = .next t) : t.StatusInv := by
  obtain ⟨o, rfl, ⟨i, hi, rfl⟩ | rfl⟩ := complete_cases h
  · exact commit_statusInv (decode_ok_opcode hi ▸ outcomeOf_fits i s)
  · exact commit_statusInv (illegalOutcome_fits _)

/-- What STATUS and RESULT say together does not depend on WERR, nor on how BUSY and DONE came about. -/
theorem statusInv_of_flags {s t : State} (h : s.StatusInv) (hresult : t.result = s.result) {b d w : Bool}
    (hstatus : t.status = { s.status with busy := b, done := d, werr := w }) (hflags : b = true → d = false) :
    t.StatusInv := by
  unfold State.StatusInv at h ⊢
  rw [hresult, hstatus]
  exact ⟨hflags, h.2⟩

theorem reset_statusInv : State.reset.StatusInv := by
  simp [State.StatusInv, State.reset]

theorem memWrite_statusInv {s : State} (h : s.StatusInv) (a : Nat) (v : Word) : (memWrite a v s).StatusInv := by
  have hflags := h.1
  unfold memWrite
  obtain e | ⟨-, e⟩ | ⟨hb, e, -⟩ | ⟨hb, ⟨-, e⟩ | ⟨c, o, d, l, g, e⟩⟩ := writeReg_cases (regAt a) v s <;> rw [e]
  · exact h
  · exact statusInv_of_flags h rfl rfl fun hb => by simp [hflags hb]
  · exact statusInv_of_flags h rfl rfl hflags
  · exact statusInv_of_flags h rfl rfl fun _ => rfl
  · exact h

/-- Settles O32. -/
theorem resetStatusFitsTogether : Obligations.ResetStatusFitsTogether := reset_statusInv

/-- Settles O33: a commit writes an outcome that fits the command's OP, and every other turn moves BUSY, DONE and WERR at
most. -/
theorem stepKeepsStatusFittingTogether : Obligations.StepKeepsStatusFittingTogether := by
  intro s t hinv h
  cases step_cases h with
  | reset _ _ heq => subst heq; exact reset_statusInv
  | held _ _ _ heq => subst heq; exact reset_statusInv
  | release _ _ heq => subst heq; exact hinv
  | idle _ _ _ _ heq => subst heq; exact hinv
  | commit _ _ _ _ hc => exact complete_statusInv hc
  | nothing _ _ _ _ _ _ heq => subst heq; exact hinv
  | write _ v rest a _ _ _ _ heq => subst heq; exact memWrite_statusInv (s := { s with agenda := rest }) hinv a v

end Sys2Proof.Machine

/-! What every reachable state holds (10_state.md R40). -/

namespace Sys2Proof.Machine

/-- What every step keeps holds after any number of steps. -/
theorem runSteps_invariant {P : State → Prop} (hstep : ∀ s t, P s → step s = .next t → P t) {k : Nat} {s t : State}
    (hs : P s) (h : runSteps k s = some t) : P t := by
  induction k generalizing s with
  | zero => cases h; exact hs
  | succ k ih =>
    obtain ⟨u, hu⟩ := step_next s
    rw [runSteps_next hu] at h
    exact ih (hstep s u hs hu) h

/-- The invalid marker stands exactly at the codes that are not in the alphabet (R40). -/
theorem rev_eq_invalid_iff {s : State} (h : s.AlphabetInv) (c : Fin 128) :
    s.rev[c] = 0xFF ↔ ∀ d : Fin 62, s.fwd[d].toNat ≠ c.val := by
  obtain ⟨-, hdigit, hother⟩ := h
  refine ⟨fun hc d hd => ?_, hother c⟩
  have hrev : s.rev[c.val]? = some (BitVec.ofNat 8 d.val) := hd ▸ hdigit d
  have hval : s.rev[c] = BitVec.ofNat 8 d.val := by simpa using hrev
  have := congrArg BitVec.toNat (hc.symm.trans hval)
  simp at this
  omega

/-- Counting a value in a vector is counting the indices that hold it. -/
theorem count_toList_eq_card {n : Nat} (r : Vector Byte n) (b : Byte) :
    r.toList.count b = (Finset.univ.filter fun c : Fin n => r[c] = b).card := by
  have h := Fin.card_filter_univ_eq_vector_get_eq_count b ⟨r.toList, r.length_toList⟩
  simpa [List.Vector.get, eq_comm] using h.symm

/-- 62 of the 128 codes are in the alphabet, so 66 entries hold the invalid marker (R40). -/
theorem rev_count_invalid {s : State} (h : s.AlphabetInv) : s.rev.toList.count 0xFF = 66 := by
  obtain ⟨⟨hrange, hdistinct⟩, -⟩ := id h
  have hcode (d : Fin 62) : s.fwd[d].toNat < 128 := Nat.lt_succ_of_le (hrange d).2
  have hinj : Function.Injective fun d : Fin 62 => (⟨s.fwd[d].toNat, hcode d⟩ : Fin 128) := fun d e hde =>
    hdistinct d e (BitVec.eq_of_toNat_eq (Fin.mk.inj hde))
  have hset : (Finset.univ.filter fun c : Fin 128 => s.rev[c] = 0xFF) =
      (Finset.univ.image fun d : Fin 62 => (⟨s.fwd[d].toNat, hcode d⟩ : Fin 128))ᶜ := by
    ext c
    rw [Finset.mem_filter_univ, rev_eq_invalid_iff h]
    simp [Fin.ext_iff]
  rw [count_toList_eq_card, hset, Finset.card_compl, Finset.card_image_of_injective _ hinj]
  simp

/-- Settles O30: the invariant of O29 along the run, and what it says of code 0 and of the number of codes. -/
theorem reachableStatesHoldAValidAlphabet : Obligations.ReachableStatesHoldAValidAlphabet := by
  intro turns k t h
  have hinv : t.AlphabetInv :=
    runSteps_invariant (P := State.AlphabetInv) stepKeepsTheAlphabetInvariant
      (s := { State.reset with agenda := turns }) alphabetInv_reset h
  refine ⟨hinv, (rev_eq_invalid_iff hinv 0).2 fun d => ?_, rev_count_invalid hinv⟩
  have := (hinv.1.1 d).1
  exact Nat.ne_of_gt this

end Sys2Proof.Machine

/-! The words of CTRL and STATUS as a host reads them, and irq (10_state.md R22, R24, R27, R42); the reset values (R44). -/

namespace Sys2Proof.Machine

@[simp] theorem memRead_ctrl (s : State) : memRead 0x004 s = s.ctrl.word := by simp [memRead, regAt, readReg]

@[simp] theorem memRead_status (s : State) : memRead 0x00C s = s.status.word := by simp [memRead, regAt, readReg]

@[simp] theorem memWrite_status (v : Word) (s : State) :
    memWrite 0x00C v s = s.setStatus (s.status.acknowledge v) := by simp [memWrite, regAt, writeReg]

theorem memWrite_cmd_idle {s : State} (h : s.status.busy = false) (w : Word) : memWrite 0x008 w s = accept w s := by
  simp [memWrite, regAt, writeReg, whenIdle, h]

/-- The fields of the STATUS word as one number (R24). -/
theorem Status.word_toNat (st : Status) :
    st.word.toNat = 65536 * st.eidx.toNat + 4096 * st.lastop.toNat + 256 * st.ecode.bits.toNat + 16 * st.trunc.toNat +
      8 * st.werr.toNat + 4 * st.err.toNat + 2 * st.done.toNat + st.busy.toNat := by
  simp only [Status.word, append_toNat, BitVec.toNat_ofBool, BitVec.toNat_ofNat]
  omega

/-- The fields of the CTRL word as one number (R22). -/
theorem Ctrl.word_toNat (c : Ctrl) : c.word.toNat = 2 * c.ie.toNat + c.strict.toNat := by
  simp only [Ctrl.word, append_toNat, BitVec.toNat_ofBool, BitVec.toNat_ofNat]
  omega

/-- The flag bits of the STATUS word (R24). -/
theorem Status.word_flags (st : Status) :
    st.word.getLsbD 0 = st.busy ∧ st.word.getLsbD 1 = st.done ∧ st.word.getLsbD 2 = st.err ∧
      st.word.getLsbD 3 = st.werr ∧ st.word.getLsbD 4 = st.trunc := by
  simp only [Status.word, BitVec.getLsbD_append]
  simp

/-- The fields of the STATUS word that are wider than a bit, the reserved ones included (R24). -/
theorem Status.word_fields (st : Status) :
    st.word.extractLsb' 5 3 = 0 ∧ st.word.extractLsb' 8 4 = st.ecode.bits ∧ st.word.extractLsb' 12 4 = st.lastop ∧
      st.word.extractLsb' 16 8 = st.eidx ∧ st.word.extractLsb' 24 8 = 0 := by
  have h0 := st.busy.toNat_le; have h1 := st.done.toNat_le; have h2 := st.err.toNat_le; have h3 := st.werr.toNat_le
  have h4 := st.trunc.toNat_le; have h8 := st.ecode.bits.isLt; have h12 := st.lastop.isLt; have h16 := st.eidx.isLt
  refine ⟨?_, ?_, ?_, ?_, ?_⟩ <;> apply BitVec.eq_of_toNat_eq <;>
    simp only [BitVec.extractLsb'_toNat, Nat.shiftRight_eq_div_pow, st.word_toNat, BitVec.ofNat_eq_ofNat,
      BitVec.toNat_ofNat] <;> omega

theorem Ctrl.word_bits (c : Ctrl) : c.word.getLsbD 0 = c.strict ∧ c.word.getLsbD 1 = c.ie := by
  simp only [Ctrl.word, BitVec.getLsbD_append]
  simp

/-- An acknowledging write clears the bits of STATUS that it names, of DONE and WERR only (R24). -/
theorem Status.acknowledge_word (v : Word) (st : Status) : (st.acknowledge v).word = st.word &&& ~~~(v &&& 0xA) := by
  have hmask (i : Nat) : (0xA : Word).getLsbD i = (decide (i = 1) || decide (i = 3)) := by
    by_cases hi : i < 32
    · interval_cases i <;> rfl
    · rw [BitVec.getLsbD_of_ge _ _ (by omega)]; simp; omega
  obtain ⟨hbusy, hdone, herr, hwerr, -⟩ := st.word_flags
  obtain ⟨hbusy', hdone', herr', hwerr', -⟩ := (st.acknowledge v).word_flags
  ext i hi
  simp only [← BitVec.getLsbD_eq_getElem, BitVec.getLsbD_and, BitVec.getLsbD_not, hmask, hi]
  obtain rfl | rfl | rfl | rfl | hge : i = 0 ∨ i = 1 ∨ i = 2 ∨ i = 3 ∨ 4 ≤ i := by omega
  · rw [hbusy', hbusy]; simp [Status.acknowledge]
  · rw [hdone', hdone]; simp [Status.acknowledge]
  · rw [herr', herr]; simp [Status.acknowledge, Status.err]
  · rw [hwerr', hwerr]; simp [Status.acknowledge]
  · have h0 : ¬i < 1 := by omega
    have h1 : ¬i - 1 < 1 := by omega
    have h2 : ¬i - 1 - 1 < 1 := by omega
    have h3 : ¬i - 1 - 1 - 1 < 1 := by omega
    simp only [Status.word, Status.acknowledge, BitVec.getLsbD_append, h0, h1, h2, h3, show i ≠ 1 by omega,
      show i ≠ 3 by omega]
    simp

/-- Settles O20, field by field. -/
theorem controlAndStatusBitsReadAsLaidOut : Obligations.ControlAndStatusBitsReadAsLaidOut := by
  intro s
  simp only [memRead_ctrl, memRead_status]
  obtain ⟨hstrict, hie⟩ := s.ctrl.word_bits
  obtain ⟨hbusy, hdone, herr, hwerr, htrunc⟩ := s.status.word_flags
  obtain ⟨hrsv0, hecode, hlastop, heidx, hrsv1⟩ := s.status.word_fields
  have hctrl : s.ctrl.word.toNat < 4 := by
    have := s.ctrl.ie.toNat_le; have := s.ctrl.strict.toNat_le
    rw [s.ctrl.word_toNat]
    omega
  refine ⟨hstrict, hie, hctrl, hbusy, hdone, hwerr, htrunc, hrsv0, hlastop, heidx, hrsv1, ?_, ?_⟩
  · rw [herr, hecode, Status.err, decide_eq_true_iff]
  · rw [hecode]
    cases s.status.ecode <;> rfl

/-- Settles O24: the write goes to STATUS, where it acknowledges. -/
theorem statusWriteClearsDoneAndWerrOnly : Obligations.StatusWriteClearsDoneAndWerrOnly := by
  intro s addr v rest hr ho ha
  refine ⟨_, windowStep_write hr (by decide) ho ha, ?_, ?_⟩
  · simp [Status.acknowledge_word]
  · simp [State.setStatus]

/-- Settles O27: DONE rises at every commit, and falls at an accept and at a STATUS write with bit 1. -/
theorem irqFollowsDoneAndIe : Obligations.IrqFollowsDoneAndIe := by
  refine ⟨fun s => ?_, fun i s => ?_, fun s w h => ?_, fun s v h => ?_⟩
  · obtain ⟨-, hdone, -⟩ := s.status.word_flags
    obtain ⟨-, hie⟩ := s.ctrl.word_bits
    rw [memRead_status, memRead_ctrl, hdone, hie, State.irq]
  · exact ⟨_, exec_eq_commit i s, by simp [State.irq]⟩
  · rw [memWrite_cmd_idle h]
    simp [State.irq, accept]
  · simp [State.irq, Status.acknowledge, h]

/-- The reverse table after reset, by the formula of R46. -/
theorem reset_rev_toNat (c : Fin 128) :
    State.reset.rev[c].toNat =
      if 0x30 ≤ c.val ∧ c.val ≤ 0x39 then c.val - 0x30
      else if 0x41 ≤ c.val ∧ c.val ≤ 0x5A then c.val - 0x41 + 10
      else if 0x61 ≤ c.val ∧ c.val ≤ 0x7A then c.val - 0x61 + 36
      else 0xFF := by
  obtain ⟨-, hdigit, hother⟩ := alphabetInv_reset
  have hfwd : State.reset.fwd = defaultFwd := rfl
  rw [hfwd] at hdigit hother
  by_cases hc : ∃ d : Fin 62, defaultFwd[d].toNat = c.val
  · obtain ⟨d, hd⟩ := hc
    have hrev : State.reset.rev[c.val]? = some (BitVec.ofNat 8 d.val) := hd ▸ hdigit d
    have hval : State.reset.rev[c] = BitVec.ofNat 8 d.val := by simpa using hrev
    rw [hval, BitVec.toNat_ofNat, Nat.mod_eq_of_lt (by omega)]
    rw [defaultFwd_toNat] at hd
    split_ifs at hd ⊢ <;> omega
  · have hne : ∀ d : Fin 62, defaultFwd[d].toNat ≠ c.val := fun d hd => hc ⟨d, hd⟩
    rw [hother c hne]
    simp only [defaultFwd_toNat] at hne
    split_ifs with h1 h2 h3
    · have := hne ⟨c.val - 0x30, by omega⟩
      dsimp only at this
      split_ifs at this <;> omega
    · have := hne ⟨c.val - 0x41 + 10, by omega⟩
      dsimp only at this
      split_ifs at this <;> omega
    · have := hne ⟨c.val - 0x61 + 36, by omega⟩
      dsimp only at this
      split_ifs at this <;> omega
    · rfl

/-- Settles O1, with the tables by the formulas of R45 and R46. -/
theorem resetLeavesTheSpecifiedRegisters : Obligations.ResetLeavesTheSpecifiedRegisters := by
  refine ⟨rfl, rfl, rfl, rfl, rfl, rfl, fun i => ?_, fun i => ?_, fun i => ?_, defaultFwd_toNat, reset_rev_toNat, rfl⟩ <;>
    simp [State.reset]

end Sys2Proof.Machine

/-! What sets and clears BUSY and WERR (10_state.md R25, R28). -/

namespace Sys2Proof.Machine

/-- A host write sets BUSY only as an accept, a write to CMD while BUSY = 0 (R190). -/
theorem memWrite_accepts {s : State} {a : Nat} {v : Word} (h : s.status.busy = false)
    (ht : (memWrite a v s).status.busy = true) : a = 0x008 ∧ (memWrite a v s).pend = v := by
  unfold memWrite at ht ⊢
  obtain e | ⟨-, e⟩ | ⟨-, e, -⟩ | ⟨-, ⟨hcmd, e⟩ | ⟨c, o, d, l, g, e⟩⟩ := writeReg_cases (regAt a) v s <;> rw [e] at ht ⊢
  · simp [h] at ht
  · simp [h, Status.acknowledge] at ht
  · simp [h, dropWrite] at ht
  · exact ⟨regAt_cmd hcmd, rfl⟩
  · simp [h] at ht

theorem memWrite_busy_of_busy {s : State} (h : s.status.busy = true) (a : Nat) (v : Word) :
    (memWrite a v s).status.busy = true := by
  unfold memWrite
  obtain e | ⟨-, e⟩ | ⟨-, e, -⟩ | ⟨hidle, -⟩ := writeReg_cases (regAt a) v s
  · rw [e]; exact h
  · rw [e]; exact h
  · rw [e]; exact h
  · simp [h] at hidle

/-- A write to an input offset while BUSY = 1 is dropped (R240). -/
theorem memWrite_input_busy {s : State} {a : Nat} (h : s.status.busy = true) (ha : InputOffset a) (v : Word) :
    memWrite a v s = dropWrite s := by
  unfold memWrite
  obtain hr | hr | hr | ⟨w, hr | hr | hr⟩ := regAt_of_input ha <;> simp [hr, writeReg, whenIdle, h]

/-- A host write clears WERR only at STATUS, with bit 3 (R24). -/
theorem memWrite_clears_werr {s : State} {a : Nat} {v : Word} (h : s.status.werr = true)
    (ht : (memWrite a v s).status.werr = false) : a = 0x00C ∧ v.getLsbD 3 = true := by
  unfold memWrite at ht
  obtain e | ⟨hstatus, e⟩ | ⟨-, e, -⟩ | ⟨-, ⟨-, e⟩ | ⟨c, o, d, l, g, e⟩⟩ := writeReg_cases (regAt a) v s <;> rw [e] at ht
  · simp [h] at ht
  · exact ⟨regAt_status hstatus, by simpa [h, Status.acknowledge] using ht⟩
  · simp [dropWrite] at ht
  · simp [h, accept] at ht
  · simp [h] at ht

/-- A host write sets WERR only when it is dropped (R240). -/
theorem memWrite_sets_werr {s : State} {a : Nat} {v : Word} (h4 : a % 4 = 0) (h : s.status.werr = false)
    (ht : (memWrite a v s).status.werr = true) : s.status.busy = true ∧ InputOffset a := by
  unfold memWrite at ht
  obtain e | ⟨-, e⟩ | ⟨hb, -, hinput⟩ | ⟨-, ⟨-, e⟩ | ⟨c, o, d, l, g, e⟩⟩ := writeReg_cases (regAt a) v s
  · simp [e, h] at ht
  · simp [e, h, Status.acknowledge] at ht
  · exact ⟨hb, regAt_input h4 hinput⟩
  · simp [e, h, accept] at ht
  · simp [e, h] at ht

theorem step_assertReset {s : State} {rest : List Turn} (h : s.agenda = .assertReset :: rest) :
    step s =
      .next { State.reset with resetLine := true, agenda := rest, resp := s.resp, freeCount := s.freeCount } := by
  simp only [step, nextTurn, h, takeTurn]
  rfl

/-- Settles O15, by what each kind of step does to BUSY. -/
theorem busyIsSetByAcceptAndClearedByCommitOrReset : Obligations.BusyIsSetByAcceptAndClearedByCommitOrReset := by
  intro s t h
  cases step_cases h with
  | reset rest ha heq =>
    subst heq
    exact ⟨fun _ => nofun, fun _ _ => .inl ⟨rest, ha⟩⟩
  | held hr rest ha heq =>
    subst heq
    exact ⟨fun _ => nofun, fun _ _ => .inr (.inl ⟨hr, ha.imp And.left fun ha => ⟨rest, ha⟩⟩)⟩
  | release _ _ heq => subst heq; simp_all
  | idle _ _ _ _ heq => subst heq; simp_all
  | commit hr _ rest ha hc =>
    obtain ⟨o, rfl, -⟩ := complete_cases hc
    refine ⟨fun _ hbusy => ?_, fun _ _ => .inr (.inr ⟨hr, ha.imp And.left fun ha => ⟨rest, ha⟩, ?_⟩)⟩
    · simp at hbusy
    · exact ⟨commit_done o _, commit_lastop o _⟩
  | nothing _ _ _ _ _ _ heq => subst heq; simp_all
  | write addr v rest a ha ho hr _ heq =>
    subst heq
    refine ⟨fun hidle hbusy => ?_, fun hbusy hidle => ?_⟩
    · obtain ⟨rfl, hpend⟩ := memWrite_accepts (s := { s with agenda := rest }) hidle hbusy
      exact ⟨addr, v, rest, ha, ho, hr, hpend⟩
    · have := memWrite_busy_of_busy (s := { s with agenda := rest }) hbusy a v
      simp [this] at hidle

/-- WERR goes from 1 to 0 by reset, or by a STATUS write with bit 3 (R28). -/
theorem step_clears_werr {s t : State} (h : step s = .next t) (hs : s.status.werr = true) (ht : t.status.werr = false) :
    (∃ rest, s.agenda = .assertReset :: rest) ∨ s.resetLine = true ∨
      ∃ addr v rest, s.agenda = .hostWrite addr 4 v :: rest ∧ addr.offset? = some 0x00C ∧ v.getLsbD 3 = true := by
  cases step_cases h with
  | reset rest ha => exact .inl ⟨rest, ha⟩
  | held hr => exact .inr (.inl hr)
  | release _ _ heq => simp [heq, hs] at ht
  | idle _ _ _ _ heq => simp [heq, hs] at ht
  | commit _ _ _ _ hc =>
    obtain ⟨o, rfl, -⟩ := complete_cases hc
    simp [hs] at ht
  | nothing _ _ _ _ _ _ heq => simp [heq, hs] at ht
  | write addr v rest a ha ho _ _ heq =>
    subst heq
    obtain ⟨rfl, hbit⟩ := memWrite_clears_werr (s := { s with agenda := rest }) hs ht
    exact .inr (.inr ⟨addr, v, rest, ha, ho, hbit⟩)

/-- WERR goes from 0 to 1 by a dropped write only (R28). -/
theorem step_sets_werr {s t : State} (h : step s = .next t) (hs : s.status.werr = false) (ht : t.status.werr = true) :
    s.InFlight ∧ ∃ addr a v rest, s.agenda = .hostWrite addr 4 v :: rest ∧ addr.offset? = some a ∧ InputOffset a := by
  cases step_cases h with
  | reset _ _ heq => simp [heq, State.reset] at ht
  | held _ _ _ heq => simp [heq, State.reset] at ht
  | release _ _ heq => simp [heq, hs] at ht
  | idle _ _ _ _ heq => simp [heq, hs] at ht
  | commit _ _ _ _ hc =>
    obtain ⟨o, rfl, -⟩ := complete_cases hc
    simp [hs] at ht
  | nothing _ _ _ _ _ _ heq => simp [heq, hs] at ht
  | write addr v rest a ha ho hr h4 heq =>
    subst heq
    obtain ⟨hbusy, hinput⟩ := memWrite_sets_werr (s := { s with agenda := rest }) h4 hs ht
    exact ⟨⟨hbusy, hr⟩, addr, a, v, rest, ha, ho, hinput⟩

/-- Settles O25. -/
theorem werrIsSticky : Obligations.WerrIsSticky := by
  intro s t h
  refine ⟨fun addr a v rest hfly ha ho hinput => ?_, fun addr v rest hr ha ho hbit => ?_, fun rest ha => ?_,
    step_clears_werr h, step_sets_werr h⟩
  · obtain ⟨hbusy, hr⟩ := hfly
    obtain rfl := Host.Outcome.next.inj (h.symm.trans (windowStep_write hr hinput.1 ho ha))
    rw [memWrite_input_busy (s := { s with agenda := rest }) hbusy hinput]
    rfl
  · obtain rfl := Host.Outcome.next.inj (h.symm.trans (windowStep_write hr (by decide) ho ha))
    simp [Status.acknowledge, hbit]
  · obtain rfl := Host.Outcome.next.inj (h.symm.trans (step_assertReset ha))
    rfl

end Sys2Proof.Machine

/-! What the scalar and block commands leave of the window, byte by byte (10_state.md R35, R36; 44_control.md R193). -/

namespace Sys2Proof.Machine

/-- The five commands that store nothing succeed without a write, or raise an error (R105, R106, R133, R134, R191). -/
theorem outcomeOf_scalar {i : Instr} (h : i = .nop ∨ i = .alphaFwd ∨ i = .alphaRev ∨ i = .lenEnc ∨ i = .lenByte)
    (s : State) :
    (∃ r, outcomeOf i s = .ok ⟨.nothing, r, false⟩) ∨ ∃ code idx, outcomeOf i s = raise code idx := by
  obtain rfl | rfl | rfl | rfl | rfl := h
  · exact .inl ⟨0, rfl⟩
  · simp only [outcomeOf, performAlphaFwd]
    split
    · exact .inl ⟨_, rfl⟩
    · exact .inr ⟨_, _, rfl⟩
  · simp only [outcomeOf, performAlphaRev]
    split <;> exact .inl ⟨_, rfl⟩
  · rw [outcomeOf, encLenChecked_eq]
    split
    · exact .inl ⟨_, rfl⟩
    · exact .inr ⟨_, _, rfl⟩
  · rw [outcomeOf, byteLenChecked_eq]
    split
    · exact .inr ⟨_, _, rfl⟩
    · split
      · exact .inr ⟨_, _, rfl⟩
      · exact .inl ⟨_, rfl⟩

theorem exec_scalar_afterCommit {i : Instr}
    (h : i = .nop ∨ i = .alphaFwd ∨ i = .alphaRev ∨ i = .lenEnc ∨ i = .lenByte) (s : State) :
    ∃ r code idx, exec i s = .next (s.afterCommit r code idx false) := by
  rw [exec_eq_commit]
  obtain ⟨r, ho⟩ | ⟨code, idx, ho⟩ := outcomeOf_scalar h s <;> rw [ho]
  · exact ⟨r, .ok, 0, congrArg _ (commit_nothing r false s)⟩
  · exact ⟨0, code, idx, congrArg _ (commit_raise code idx s)⟩

/-- What a list stored at the front of a buffer leaves: every entry past its end. -/
theorem storeFrom_getElem?_of_length_le {α : Type} {n : Nat} (l : List α) (t : Vector α n) {i : Nat} (h : l.length ≤ i) :
    (storeFrom 0 l t)[i]? = t[i]? := by
  by_cases hi : i < n
  · rw [Vector.getElem?_eq_getElem hi, Vector.getElem?_eq_getElem hi, storeFrom_get 0 l t i hi, dif_neg (by omega)]
  · simp [hi]

/-- The word that holds a byte of the window starts at its register's offset. -/
theorem offsetOf_of_regAt_word {a : Nat} {r : Reg} (h : regAt (a - a % 4) = r) (hr : r ≠ .reserved) :
    offsetOf r = a - a % 4 := by
  subst h
  exact offsetOf_regAt (by omega) hr

/-- A byte of the SYM words outside the stored lanes reads as before (R36). -/
theorem byteOf_packLanes_storeFrom (l : List Lane) (t : Vector Lane 11) {a w : Nat} (hw : regAt (a - a % 4) = .symw w)
    (ha : ¬(0x040 ≤ a ∧ a < 0x040 + 2 * l.length)) :
    byteOf (packLanes (storeFrom 0 l t) w) (a % 4) = byteOf (packLanes t w) (a % 4) := by
  have hoff : 0x040 + 4 * w = a - a % 4 := offsetOf_of_regAt_word hw nofun
  exact byteOf_packLanes_congr _ _ _ _ (by omega) (storeFrom_getElem?_of_length_le l t (by omega))

/-- A byte of the DBUF words outside the stored bytes reads as before (R35). -/
theorem byteOf_packBytes_storeFrom (l : List Byte) (t : Vector Byte 8) {a w : Nat} (hw : regAt (a - a % 4) = .dbufw w)
    (ha : ¬(0x020 ≤ a ∧ a < 0x020 + l.length)) :
    byteOf (packBytes (storeFrom 0 l t) w) (a % 4) = byteOf (packBytes t w) (a % 4) := by
  have hoff : 0x020 + 4 * w = a - a % 4 := offsetOf_of_regAt_word hw nofun
  rw [byteOf_packBytes _ _ _ (by omega), byteOf_packBytes _ _ _ (by omega),
    storeFrom_getElem?_of_length_le l t (by omega)]

/-- ENC.BLK stores the encoder's symbols in its lanes (R151, R152). -/
theorem outcomeOf_encBlk {k : BitVec 8} (hk : k.toNat ≤ 8) (s : State) :
    outcomeOf (.encBlk k) s =
      .ok ⟨.symbols ((encBlock (dataBytes k.toNat s) s.fwd).map laneOf), BitVec.ofNat 32 (encLen k.toNat), false⟩ :=
  if_pos hk

theorem encBlock_dataBytes_length {k : Nat} (s : State) (hk : k ≤ 8) :
    (encBlock (dataBytes k s) s.fwd).length = encLen k := by
  simp [encBlock, digits_length, dataBytes_length s hk]

/-- For a valid length, DEC.BLK raises an error or stores exactly b bytes (R170, R174). -/
theorem outcomeOf_decBlk {j : BitVec 8} {b : Nat} (hb : b ≤ 8) (hj : j.toNat = (11 * b + 7) / 8) (s : State) :
    (∃ e, outcomeOf (.decBlk j) s = .error e) ∨
      ∃ data r tr, data.length = b ∧ outcomeOf (.decBlk j) s = .ok ⟨.bytes data, r, tr⟩ := by
  have hcount : countValue j ≤ 11 := by rw [countValue]; omega
  simp only [outcomeOf, performDecBlk, if_pos hcount, byteLenChecked_encLen hb hj]
  split
  · exact .inl ⟨_, rfl⟩
  · unfold outputBytes
    split
    · exact .inl ⟨_, rfl⟩
    · exact .inr ⟨_, _, _, toBE_length _ _, rfl⟩

/-- Settles O56: each of the five leaves a state that differs in RESULT and STATUS. -/
theorem scalarCommandsStoreNothing : Obligations.ScalarCommandsStoreNothing := by
  intro i s hi
  obtain ⟨r, code, idx, ht⟩ := exec_scalar_afterCommit hi s
  refine ⟨_, ht, rfl, rfl, fun a h1 h2 => ?_⟩
  exact windowByte_congr a rfl rfl rfl h1 h2 (.inl rfl) (.inl rfl) (.inl ⟨rfl, rfl⟩)

/-- Settles O58: the encoder's list has encLen(k) lanes, and is stored from lane 0 on. -/
theorem encBlkStoresToItsLanesOnly : Obligations.EncBlkStoresToItsLanesOnly := by
  intro k s hk
  refine ⟨_, exec_eq_commit (.encBlk k) s, ?_⟩
  rw [outcomeOf_encBlk hk, commit_ok]
  refine ⟨rfl, rfl, fun a h1 h2 ha => ?_⟩
  rw [← encBlock_dataBytes_length s hk, ← List.length_map laneOf] at ha
  exact windowByte_congr a rfl rfl rfl h1 h2 (.inl rfl)
    (.inr fun w hw => byteOf_packLanes_storeFrom _ s.sym hw ha) (.inl ⟨rfl, rfl⟩)

/-- Settles O59: an error stores nothing, and a success stores b bytes from byte 0 on. -/
theorem decBlkStoresToItsBytesOnly : Obligations.DecBlkStoresToItsBytesOnly := by
  intro j b s hb hj
  refine ⟨_, exec_eq_commit (.decBlk j) s, ?_⟩
  obtain ⟨e, ho⟩ | ⟨data, r, tr, hlen, ho⟩ := outcomeOf_decBlk hb hj s
  · rw [ho, commit_error]
    refine ⟨rfl, rfl, fun a h1 h2 _ => ?_⟩
    exact windowByte_congr a rfl rfl rfl h1 h2 (.inl rfl) (.inl rfl) (.inl ⟨rfl, rfl⟩)
  · rw [ho, commit_ok]
    refine ⟨rfl, rfl, fun a h1 h2 ha => ?_⟩
    have hrange : ¬(0x020 ≤ a ∧ a < 0x020 + data.length) := fun h => ha ⟨rfl, hlen ▸ h⟩
    exact windowByte_congr a rfl rfl rfl h1 h2
      (.inr fun w hw => byteOf_packBytes_storeFrom data s.dbuf hw hrange) (.inl rfl) (.inl ⟨rfl, rfl⟩)

end Sys2Proof.Machine

/-! The register window as a host uses it (20_memory.md R60 to R65): its bounds, its words, and the access of one word. -/

namespace Sys2Proof.Machine

/-- Settles O18: BASE_ADDR is 512 times a number, and both ways to name an address test the same 512 bytes. -/
theorem windowIsTheBytesFromBaseAddr : Obligations.WindowIsTheBytesFromBaseAddr := by
  refine ⟨Nat.mul_mod_right _ _, fun a => ⟨?_, ?_⟩, fun b hb => ?_⟩
  · simp [BusAddr.offset?]
  · simp [BusAddr.offset?, Config.windowSize, Nat.lt_succ_iff]
  · refine if_neg fun ⟨hlo, hhi⟩ => ?_
    rw [Config.windowSize] at hhi
    exact hb (b - Config.baseAddr) (by omega) (by omega)

/-! ### The turn of a host access -/

theorem step_of_agenda {s : State} {turn : Turn} {rest : List Turn} (h : s.agenda = turn :: rest) :
    step s = takeTurn turn { s with agenda := rest } := by
  simp only [step, nextTurn, h]
  rfl

theorem accepted_eq_false {a size : Nat} (h : size ≠ 4 ∨ a % 4 ≠ 0) : accepted a size = false :=
  decide_eq_false fun ⟨hsize, halign⟩ => h.elim (· hsize) (· halign)

theorem hostRead_unsupported {addr : BusAddr} {a size : Nat} (ho : addr.offset? = some a) (h : size ≠ 4 ∨ a % 4 ≠ 0)
    (s : State) : hostRead addr size s = { s with resp := some (.read true 0) } := by
  simp [hostRead, ho, accepted_eq_false h, State.setResp]

theorem hostWrite_unsupported {addr : BusAddr} {a size : Nat} (ho : addr.offset? = some a)
    (h : size ≠ 4 ∨ a % 4 ≠ 0) (v : Word) (s : State) :
    hostWrite addr size v s = { s with resp := some (.write true) } := by
  simp [hostWrite, ho, accepted_eq_false h, State.setResp]

theorem hostRead_outside {addr : BusAddr} (ho : addr.offset? = none) (size : Nat) (s : State) :
    hostRead addr size s = { s with resp := none } := by
  simp [hostRead, ho, State.setResp]

theorem hostWrite_outside {addr : BusAddr} (ho : addr.offset? = none) (size : Nat) (v : Word) (s : State) :
    hostWrite addr size v s = { s with resp := none } := by
  simp [hostWrite, ho, State.setResp]

theorem hostRead_word {addr : BusAddr} {a : Nat} {s : State} (hr : s.resetLine = false) (h4 : a % 4 = 0)
    (ho : addr.offset? = some a) : hostRead addr 4 s = { s with resp := some (.read false (memRead a s)) } := by
  simp [hostRead, ho, accepted, h4, hr, State.setResp]

/-- Settles O17: both accesses are refused before the reset input is looked at. -/
theorem unsupportedAccessHasNoEffect : Obligations.UnsupportedAccessHasNoEffect := by
  intro s addr size v rest
  refine ⟨fun a ho hbad => ⟨fun h => ?_, fun h => ?_⟩, fun ho => ⟨fun h => ?_, fun h => ?_⟩⟩ <;>
    rw [step_of_agenda h, takeTurn]
  · rw [hostRead_unsupported ho hbad]
  · rw [hostWrite_unsupported ho hbad]
  · rw [hostRead_outside ho]
  · rw [hostWrite_outside ho]

/-! ### Reading a word -/

@[simp] theorem memRead_agenda (a : Nat) (s : State) (turns : List Turn) :
    memRead a { s with agenda := turns } = memRead a s := rfl

@[simp] theorem memRead_resp (a : Nat) (s : State) (r : Option BusResp) :
    memRead a { s with resp := r } = memRead a s := rfl

/-- Settles O16. -/
theorem readReturnsTheWordAndChangesNothing : Obligations.ReadReturnsTheWordAndChangesNothing := by
  intro s addr a rest hr h4 ho h
  rw [step_of_agenda h, takeTurn, hostRead_word (s := { s with agenda := rest }) hr h4 ho, memRead_agenda]

theorem memRead_of_regAt {a : Nat} {r : Reg} (h : regAt a = r) (s : State) : memRead a s = readReg r s := by
  rw [memRead, h]

theorem some_packBytes_byte {n : Nat} (t : Vector Byte n) {w i : Nat} (hi : i < 4) (h : 4 * w + i < n) :
    some ((packBytes t w).extractLsb' (8 * i) 8) = t[4 * w + i]? := by
  rw [packBytes_byte t w i hi, Vector.getElem?_eq_getElem h, Option.getD_some]

/-- Settles O19: each offset holds the word of its register, and the packing puts each entry at its bits. -/
theorem windowWordsFollowTheRegisterMap : Obligations.WindowWordsFollowTheRegisterMap := by
  intro s
  refine ⟨rfl, rfl, rfl, rfl, fun a _ ha => memRead_of_regAt (regAt_reserved ha) s, fun w i hw hi => ?_,
    fun w i hw hi => ?_, fun w i hw hi => ?_, fun w i hw hi => ?_, fun w i hw hi => ?_⟩
  · rw [memRead_of_regAt (regAt_dbuf hw), readReg, some_packBytes_byte s.dbuf hi (by omega)]
  · rw [memRead_of_regAt (regAt_sym hw), readReg, packLanes_half s.sym w i hi]
    exact Vector.getD_getElem?
  · rw [memRead_of_regAt (regAt_stage hw), readReg, some_packBytes_byte s.stage hi (by omega)]
  · rw [memRead_of_regAt (regAt_fwd hw), readReg, packBytes_byte s.fwd w i hi]
    exact Vector.getD_getElem?
  · rw [memRead_of_regAt (regAt_rev hw), readReg, some_packBytes_byte s.rev hi (by omega)]

/-! ### Writing a word -/

/-- A write where only reads have a meaning changes nothing (R61, R65). -/
theorem memWrite_readOnly {a : Nat} (h : a = 0x000 ∨ a = 0x014 ∨ (0x0C0 ≤ a ∧ a < 0x180) ∨ ReservedOffset a)
    (v : Word) (s : State) : memWrite a v s = s := by
  obtain hr | hr | ⟨w, hr⟩ | ⟨w, hr⟩ | hr := regAt_readOnly h <;> rw [memWrite, hr, writeReg]

/-- Settles O23. -/
theorem writesToReadOnlyOffsetsAreIgnored : Obligations.WritesToReadOnlyOffsetsAreIgnored := by
  intro s addr a v rest hr h4 ho ha h
  rw [windowStep_write hr h4 ho h, memWrite_readOnly ha]

theorem whenIdle_of_idle {s : State} (h : s.status.busy = false) (t : State) : whenIdle s t = t := by
  simp [whenIdle, h]

theorem regAt_ne_status_of_input {a : Nat} (ha : InputOffset a) : regAt a ≠ .status := fun hr => by
  obtain rfl := regAt_status hr
  omega

/-- While idle, an input write other than an accept stores in CTRL, OPERAND or a buffer, and nowhere else (R65). -/
theorem memWrite_input_frame {s : State} {a : Nat} (h : s.status.busy = false) (ha : InputOffset a) (hcmd : a ≠ 0x008)
    (v : Word) :
    ∃ c o d l g, memWrite a v s = { s with ctrl := c, operand := o, dbuf := d, sym := l, stage := g } := by
  unfold memWrite
  obtain e | ⟨hstatus, -⟩ | ⟨hbusy, -⟩ | ⟨-, ⟨hr, -⟩ | e⟩ := writeReg_cases (regAt a) v s
  · exact ⟨s.ctrl, s.operand, s.dbuf, s.sym, s.stage, e⟩
  · exact absurd hstatus (regAt_ne_status_of_input ha)
  · simp [h] at hbusy
  · exact absurd (regAt_cmd hr) hcmd
  · exact e

theorem memRead_memWrite_of_regAt {a : Nat} {r : Reg} (h : regAt a = r) (v : Word) (s : State) :
    memRead a (memWrite a v s) = readReg r (writeReg r v s) := by
  rw [memRead, memWrite, h]

/-- While idle, what an input write leaves in its word: the value, without CTRL's reserved bits and lane 11 (R65). -/
theorem memRead_memWrite_same {s : State} {a : Nat} (h : s.status.busy = false) (ha : InputOffset a) (hcmd : a ≠ 0x008)
    (v : Word) :
    memRead a (memWrite a v s) = if a = 0x004 then v &&& 0x3 else if a = 0x054 then v &&& 0xFFFF else v := by
  obtain ⟨h4, ha⟩ := ha
  obtain rfl | rfl | rfl | ha | ha | ha := ha
  · simp [memWrite, regAt, writeReg, whenIdle_of_idle h, ctrl_word_ofWord]
  · exact absurd rfl hcmd
  · simp [memRead, memWrite, regAt, readReg, writeReg, whenIdle_of_idle h]
  · obtain ⟨w, rfl⟩ : ∃ w, a = 0x020 + 4 * w := ⟨(a - 0x020) / 4, by omega⟩
    rw [if_neg (by omega), if_neg (by omega), memRead_memWrite_of_regAt (regAt_dbuf (by omega)), writeReg,
      whenIdle_of_idle h, readReg, State.setDbuf_dbuf, packBytes_storeBytes_same s.dbuf w v (by omega)]
  · obtain ⟨w, rfl⟩ : ∃ w, a = 0x040 + 4 * w := ⟨(a - 0x040) / 4, by omega⟩
    have hpartial : 0x040 + 4 * w = 0x054 ↔ ¬2 * w + 1 < 11 := by omega
    rw [if_neg (by omega), memRead_memWrite_of_regAt (regAt_sym (by omega)), writeReg, whenIdle_of_idle h, readReg,
      State.setSym_sym, packLanes_storeLanes_same s.sym w v (by omega)]
    simp only [hpartial, ite_not]
  · obtain ⟨w, rfl⟩ : ∃ w, a = 0x080 + 4 * w := ⟨(a - 0x080) / 4, by omega⟩
    rw [if_neg (by omega), if_neg (by omega), memRead_memWrite_of_regAt (regAt_stage (by omega)), writeReg,
      whenIdle_of_idle h, readReg, State.setStage_stage, packBytes_storeBytes_same s.stage w v (by omega)]

/-- While idle, a write of one register leaves the word of every other; a CMD or STATUS write may change STATUS. -/
theorem readReg_writeReg_ne {s : State} {r r' : Reg} (h : s.status.busy = false) (hcmd : r ≠ .cmd)
    (hstatus : r ≠ .status) (hne : r' ≠ r) (v : Word) : readReg r' (writeReg r v s) = readReg r' s := by
  cases r with
  | cmd => exact absurd rfl hcmd
  | status => exact absurd rfl hstatus
  | param | result | fwdw | revw | reserved => rfl
  | ctrl =>
    rw [writeReg, whenIdle_of_idle h]
    cases r' with
    | ctrl => exact absurd rfl hne
    | _ => simp [readReg]
  | operand =>
    rw [writeReg, whenIdle_of_idle h]
    cases r' with
    | operand => exact absurd rfl hne
    | _ => simp [readReg]
  | dbufw w =>
    rw [writeReg, whenIdle_of_idle h]
    cases r' with
    | dbufw w' =>
      have hword : w' ≠ w := fun e => hne (congrArg Reg.dbufw e)
      rw [readReg, readReg, State.setDbuf_dbuf, packBytes_storeBytes_ne s.dbuf w w' v hword]
    | _ => simp [readReg]
  | symw w =>
    rw [writeReg, whenIdle_of_idle h]
    cases r' with
    | symw w' =>
      have hword : w' ≠ w := fun e => hne (congrArg Reg.symw e)
      rw [readReg, readReg, State.setSym_sym, packLanes_storeLanes_ne s.sym w w' v hword]
    | _ => simp [readReg]
  | stagew w =>
    rw [writeReg, whenIdle_of_idle h]
    cases r' with
    | stagew w' =>
      have hword : w' ≠ w := fun e => hne (congrArg Reg.stagew e)
      rw [readReg, readReg, State.setStage_stage, packBytes_storeBytes_ne s.stage w w' v hword]
    | _ => simp [readReg]

/-- While idle, an input write other than an accept leaves every other word of the window (R65). -/
theorem memRead_memWrite_ne {s : State} {a b : Nat} (h : s.status.busy = false) (ha : InputOffset a) (hcmd : a ≠ 0x008)
    (hb : b % 4 = 0) (hne : b ≠ a) (v : Word) : memRead b (memWrite a v s) = memRead b s := by
  have hmapped : regAt a ≠ .reserved := fun hr => by
    simpa [hr] using regAt_of_input ha
  exact readReg_writeReg_ne h (fun hr => hcmd (regAt_cmd hr)) (regAt_ne_status_of_input ha)
    (fun hr => hne (regAt_inj ha.1 hb hr.symm hmapped).symm) v

/-- Settles O21: the write stores in its own register, and no two aligned offsets hold the same one. -/
theorem idleWriteStoresItsWordOnly : Obligations.IdleWriteStoresItsWordOnly := by
  intro s addr a v rest hidle ha hcmd ho h
  obtain ⟨hbusy, hr⟩ := hidle
  have hidle : ({ s with agenda := rest } : State).status.busy = false := hbusy
  obtain ⟨c, o, d, l, g, hframe⟩ := memWrite_input_frame hidle ha hcmd v
  refine ⟨_, windowStep_write hr ha.1 ho h, ?_, fun b hb hne => ?_, ?_, ?_, ?_, ?_, rfl⟩
  · rw [memRead_resp, memRead_memWrite_same hidle ha hcmd v]
  · rw [memRead_resp, memRead_memWrite_ne hidle ha hcmd hb hne v, memRead_agenda]
  all_goals rw [hframe]

end Sys2Proof.Machine

/-! Decoding and encoding (30_encoding.md R84, R85): the words that stand for a command, in both directions. -/

namespace Sys2Proof

/-- The row of the opcode map that a command's OP selects gives that command when the word holds its COUNT, in range (R84,
R85). -/
theorem decodeOp_opcode_eq_ok {w : Word} {i : Instr} :
    decodeOp w i.opcode.toNat = .ok i ↔ countField w = i.count ∧ i.wf = true := by
  cases i with
  | alphaLoad | encBlk | decBlk =>
    refine withCount_eq_ok.trans ⟨?_, ?_⟩
    · rintro ⟨hwf, hi⟩
      exact ⟨congrArg Instr.count hi, hi ▸ hwf⟩
    · rintro ⟨hcount, hwf⟩
      exact ⟨hcount ▸ hwf, congrArg _ hcount⟩
  | _ => exact withoutCount_eq_ok.trans (by simp [Instr.count, Instr.wf])

/-- A word that decodes to a command has both reserved fields 0 (R85). -/
theorem decode_ok_reserved {w : Word} {i : Instr} (h : decode w = .ok i) : rsv0Field w = 0 ∧ rsv1Field w = 0 := by
  by_contra hrsv
  rw [decode, if_pos (Decidable.not_and_iff_or_not.mp hrsv)] at h
  cases h

/-- The words that decode to a command, by their four fields (R84, R85). -/
theorem decode_eq_ok {w : Word} {i : Instr} :
    decode w = .ok i ↔
      rsv0Field w = 0 ∧ rsv1Field w = 0 ∧ opField w = i.opcode ∧ countField w = i.count ∧ i.wf = true := by
  constructor
  · intro h
    obtain ⟨h0, h1⟩ := decode_ok_reserved h
    have hop := decode_ok_opcode h
    rw [decode_eq_decodeOp h0 h1, hop, decodeOp_opcode_eq_ok] at h
    exact ⟨h0, h1, hop, h⟩
  · rintro ⟨h0, h1, hop, hrow⟩
    rwa [decode_eq_decodeOp h0 h1, hop, decodeOp_opcode_eq_ok]

/-- The words that decode to a command, read off the bits of the word as a number (R80, R84, R85). -/
theorem decode_eq_ok_iff_toNat {w : Word} {i : Instr} :
    decode w = .ok i ↔ w.toNat / 16 % 16 = 0 ∧ w.toNat / 65536 = 0 ∧ w.toNat % 16 = i.opcode.toNat ∧
      w.toNat / 256 % 256 = i.count.toNat ∧ i.wf = true := by
  simp only [decode_eq_ok, ← BitVec.toNat_inj, rsv0Field_toNat, rsv1Field_toNat, opField_toNat, countField_toNat,
    BitVec.ofNat_eq_ofNat, BitVec.toNat_ofNat, Nat.zero_mod]

/-- A word that decodes to no command is rejected (R85, R86). -/
theorem decode_error_of_ne_ok {w : Word} (h : ∀ i, decode w ≠ .ok i) : ∃ why, decode w = .error why := by
  cases hd : decode w with
  | ok i => exact absurd hd (h i)
  | error why => exact ⟨why, rfl⟩

/-- No command has the OP 0x7, or one of 0xA..0xF (R84). -/
theorem Instr.opcode_not_reserved (i : Instr) : ¬(i.opcode.toNat = 7 ∨ 10 ≤ i.opcode.toNat) := by
  cases i <;> simp [Instr.opcode]

/-- Of the commands with OP 0..6, only ALPHA.LOAD has a COUNT (R82, R84). -/
theorem Instr.count_eq_zero_of_opcode {i : Instr} (hle : i.opcode.toNat ≤ 6) (hload : i.opcode.toNat ≠ 2) :
    i.count.toNat = 0 := by
  cases i with
  | alphaLoad => exact absurd rfl hload
  | encBlk | decBlk => exact absurd hle (by simp [Instr.opcode])
  | _ => rfl

/-- COUNT of ENC.BLK is at most 8 (R84). -/
theorem Instr.count_le_of_encBlk {i : Instr} (hwf : i.wf = true) (hop : i.opcode.toNat = 8) : i.count.toNat ≤ 8 := by
  cases i with
  | encBlk => exact of_decide_eq_true hwf
  | _ => simp [Instr.opcode] at hop

/-- COUNT of DEC.BLK is at most 11 (R84). -/
theorem Instr.count_le_of_decBlk {i : Instr} (hwf : i.wf = true) (hop : i.opcode.toNat = 9) : i.count.toNat ≤ 11 := by
  cases i with
  | decBlk => exact of_decide_eq_true hwf
  | _ => simp [Instr.opcode] at hop

/-- Settles O4: the fields of the encoded word are the command's OP and COUNT, with both reserved fields 0. -/
theorem decodeOfEncodeGivesTheCommandBack : Obligations.DecodeOfEncodeGivesTheCommandBack := fun i hwf =>
  decode_eq_ok.mpr ⟨rsv0Field_encode i, rsv1Field_encode i, opField_encode i, countField_encode i, hwf⟩

/-- Settles O5: a word is its four fields put together, and decoding fixes all four. -/
theorem decodedWordIsTheCommandsEncoding : Obligations.DecodedWordIsTheCommandsEncoding := by
  intro w i h
  obtain ⟨h0, h1, hop, hcount, hwf⟩ := decode_eq_ok.mp h
  refine ⟨hwf, BitVec.eq_of_toNat_eq ?_⟩
  rw [encode_toNat, word_toNat_fields w, h0, h1, hop, hcount]
  simp

/-- Settles O6: a word with reserved bits, OP or COUNT outside the opcode map is no command's, and any other word has the
fields of its row's command. -/
theorem decodeFollowsTheOpcodeMap : Obligations.DecodeFollowsTheOpcodeMap := by
  intro w op count reserved
  have hfields {i : Instr} (h : decode w = .ok i) :
      ¬reserved ∧ op = i.opcode.toNat ∧ count = i.count.toNat ∧ i.wf = true := by
    obtain ⟨h0, h1, hrow⟩ := decode_eq_ok_iff_toNat.mp h
    exact ⟨by simp [reserved, h0, h1], hrow⟩
  have hok {i : Instr} (hres : ¬reserved) (hop : op = i.opcode.toNat) (hcount : count = i.count.toNat)
      (hwf : i.wf = true) : decode w = .ok i := by
    obtain ⟨h0, h1⟩ := not_or.mp hres
    exact decode_eq_ok_iff_toNat.mpr ⟨not_not.mp h0, not_not.mp h1, hop, hcount, hwf⟩
  have hofNat : count = (BitVec.ofNat 8 count).toNat := by simp [count]
  refine ⟨fun hres => ?_, fun hop => ?_, fun hle hload hcount => ?_, fun hop hcount => ?_, fun hop hcount => ?_,
    fun hres hcount => ?_, fun hres hop => ?_, fun hres hop hcount => ?_, fun hres hop hcount => ?_⟩
  · exact decode_error_of_ne_ok fun i h => (hfields h).1 hres
  · refine decode_error_of_ne_ok fun i h => ?_
    obtain ⟨-, hi, -, -⟩ := hfields h
    exact i.opcode_not_reserved (hi ▸ hop)
  · refine decode_error_of_ne_ok fun i h => ?_
    obtain ⟨-, hi, hc, -⟩ := hfields h
    exact hcount (hc.trans (Instr.count_eq_zero_of_opcode (hi ▸ hle) (hi ▸ hload)))
  · refine decode_error_of_ne_ok fun i h => ?_
    obtain ⟨-, hi, hc, hwf⟩ := hfields h
    exact absurd (Instr.count_le_of_encBlk hwf (hi.symm.trans hop)) (hc ▸ hcount.not_ge)
  · refine decode_error_of_ne_ok fun i h => ?_
    obtain ⟨-, hi, hc, hwf⟩ := hfields h
    exact absurd (Instr.count_le_of_decBlk hwf (hi.symm.trans hop)) (hc ▸ hcount.not_ge)
  · refine ⟨?_, ?_, ?_, ?_, ?_, ?_⟩ <;> exact (hok hres · hcount rfl)
  · exact hok hres hop hofNat rfl
  · exact hok hres hop hofNat (decide_eq_true (hofNat ▸ hcount))
  · exact hok hres hop hofNat (decide_eq_true (hofNat ▸ hcount))

/-- Settles O7: each example word is the encoding of its command, whose COUNT is in range. -/
theorem exampleWordsOfTheOpcodeMapDecode : Obligations.ExampleWordsOfTheOpcodeMapDecode := by
  have hword {w : Word} {i : Instr} (henc : encode i = w) (hwf : i.wf = true) : decode w = .ok i :=
    henc ▸ decodeOfEncodeGivesTheCommandBack i hwf
  refine ⟨?_, ?_, ?_, ?_, ?_, ?_, ?_, ?_, ?_, ?_, ?_⟩ <;> exact hword rfl rfl

end Sys2Proof

/-! The alphabet commands (40_alphabet.md R100 to R106): what each commits, and which steps change the tables. -/

namespace Sys2Proof.Machine

/-! ### The state after a command, by its outcome -/

theorem exec_of_outcome_nothing {i : Instr} {s : State} {r : Word} {tr : Bool}
    (h : outcomeOf i s = .ok ⟨.nothing, r, tr⟩) : exec i s = .next (s.afterCommit r .ok 0 tr) := by
  rw [exec_eq_commit, h, commit_nothing]

theorem exec_of_outcome_raise {i : Instr} {s : State} {code : ErrCode} {idx : Nat}
    (h : outcomeOf i s = raise code idx) : exec i s = .next (s.afterCommit 0 code idx false) := by
  rw [exec_eq_commit, h, commit_raise]

theorem exec_of_outcome_tables {i : Instr} {s : State} {f : Vector Byte 62} {r : Word} {tr : Bool}
    (h : outcomeOf i s = .ok ⟨.tables f, r, tr⟩) :
    exec i s = .next { s.afterCommit r .ok 0 tr with fwd := f, rev := buildRev f } := by
  rw [exec_eq_commit, h, commit_ok, committed_eq]
  rfl

/-- A command that loads a forward table leaves it with its reverse, and commits like one that writes no table. -/
theorem exec_loads_tables {i : Instr} {s : State} {f : Vector Byte 62} {r : Word} {tr : Bool}
    (h : outcomeOf i s = .ok ⟨.tables f, r, tr⟩) :
    ∃ t, exec i s = .next t ∧ { t with fwd := s.fwd, rev := s.rev } = s.afterCommit r .ok 0 tr ∧
      t.fwd = f ∧ t.rev = buildRev f :=
  ⟨_, exec_of_outcome_tables h, rfl, rfl, rfl⟩

/-! ### The check of the staged alphabet -/

theorem stagedSymbols_toList_getElem (s : State) {i : Nat} (h : i < (stagedSymbols s).toList.length) :
    (stagedSymbols s).toList[i] = s.stage[i]?.getD 0 := by
  have hi : i < 62 := by simpa using h
  simp [stagedSymbols, show i < 64 by omega]

section
variable {s : State} {l : List Byte} (hl : ∀ i, (hi : i < l.length) → l[i] = s.stage[i]?.getD 0)
include hl

/-- A good staged byte, as a scan of the staged bytes sees it before it has seen any byte (R100). -/
theorem stageGood_iff_of_staged {i : Nat} (hi : i < l.length) :
    StageGood i s ↔ l[i] ≠ 0 ∧ l[i].toNat ≤ 127 ∧ l[i] ∉ [] ∧ ∀ j, (hj : j < i) → l[j] ≠ l[i] := by
  simp only [hl, List.not_mem_nil, not_false_iff, true_and]

theorem checkSymbols_of_stageGood (h : ∀ i < l.length, StageGood i s) : checkSymbols [] 0 l = .ok () :=
  checkSymbols_spec [] l 0 fun i hi => (stageGood_iff_of_staged hl hi).1 (h i hi)

theorem checkSymbols_of_first_not_stageGood {i : Nat} (hi : i < l.length) (hgood : ∀ j < i, StageGood j s)
    (hbad : ¬StageGood i s) :
    checkSymbols [] 0 l = raise
      (if s.stage[i]?.getD 0 = 0 then .cfgZero else if (s.stage[i]?.getD 0).toNat > 127 then .cfgNonAscii else .cfgDup)
      i := by
  have hscan := checkSymbols_first [] l 0 i hi
    (fun j hj => (stageGood_iff_of_staged hl (hj.trans hi)).1 (hgood j hj))
    (fun h => hbad ((stageGood_iff_of_staged hl hi).2 h))
  rwa [hl, Nat.zero_add] at hscan

end

theorem validAlphabet_of_length_eq (f : Vector Byte 62) : validAlphabet 62 f = checkSymbols [] 0 f.toList :=
  if_neg (not_not.2 rfl)

/-- The check passes a valid staged alphabet (R100). -/
theorem validAlphabet_staged_ok {s : State} (h : ∀ i < 62, StageGood i s) :
    validAlphabet 62 (stagedSymbols s) = .ok () := by
  rw [validAlphabet_of_length_eq]
  exact checkSymbols_of_stageGood (fun _ => stagedSymbols_toList_getElem s) fun i hi => h i (by simpa using hi)

/-- The check of an invalid staged alphabet raises the first bad index's error (R100, R202). -/
theorem validAlphabet_staged_first_fault {s : State} {i : Nat} (hi : i < 62) (hgood : ∀ j < i, StageGood j s)
    (hbad : ¬StageGood i s) :
    validAlphabet 62 (stagedSymbols s) = raise
      (if s.stage[i]?.getD 0 = 0 then .cfgZero else if (s.stage[i]?.getD 0).toNat > 127 then .cfgNonAscii else .cfgDup)
      i := by
  rw [validAlphabet_of_length_eq]
  exact checkSymbols_of_first_not_stageGood (fun _ => stagedSymbols_toList_getElem s) (by simpa using hi) hgood hbad

theorem validAlphabet_of_length_ne {n : Nat} (h : n ≠ 62) (f : Vector Byte 62) :
    validAlphabet n f = raise .cfgLength 0 := if_pos h

/-! ### ALPHA.LOAD by its check -/

theorem outcomeOf_alphaLoad_of_check {n : BitVec 8} {s : State}
    (h : validAlphabet n.toNat (stagedSymbols s) = .ok ()) :
    outcomeOf (.alphaLoad n) s = .ok ⟨.tables (stagedSymbols s), 62, false⟩ := by
  simp only [outcomeOf, performAlphaLoad, countValue, h]

theorem outcomeOf_alphaLoad_of_error {n : BitVec 8} {s : State} {e : CmdError}
    (h : validAlphabet n.toNat (stagedSymbols s) = .error e) : outcomeOf (.alphaLoad n) s = .error e := by
  simp only [outcomeOf, performAlphaLoad, countValue, h]

/-- ALPHA.DEF and ALPHA.LOAD write a forward table with its reverse, or raise an error (R102, R104). -/
theorem outcomeOf_alphabetLoad {i : Instr} (h : i = .alphaDef ∨ ∃ n, i = .alphaLoad n) (s : State) :
    (∃ f, outcomeOf i s = .ok ⟨.tables f, 62, false⟩) ∨ ∃ e, outcomeOf i s = .error e := by
  obtain rfl | ⟨n, rfl⟩ := h
  · exact .inl ⟨defaultFwd, rfl⟩
  · cases hcheck : validAlphabet n.toNat (stagedSymbols s) with
    | ok _ => exact .inl ⟨_, outcomeOf_alphaLoad_of_check hcheck⟩
    | error e => exact .inr ⟨e, outcomeOf_alphaLoad_of_error hcheck⟩

/-! ### The tables after a step and after a command -/

/-- A commit changes the tables only after the success of ALPHA.DEF or ALPHA.LOAD (R103). -/
theorem complete_tables_changed {s t : State} (h : complete s = .next t) (hne : t.fwd ≠ s.fwd ∨ t.rev ≠ s.rev) :
    t.status.ecode = .ok ∧ (decode s.pend = .ok .alphaDef ∨ ∃ n, decode s.pend = .ok (.alphaLoad n)) := by
  obtain ⟨o, rfl, hfrom⟩ := complete_cases h
  obtain ⟨hfwd, hrev⟩ | ⟨f, r, tr, rfl, -⟩ := commit_tables o s
  · exact absurd hne (by simp [hfwd, hrev])
  · refine ⟨rfl, ?_⟩
    obtain ⟨i, hdecode, hi⟩ | hillegal := hfrom
    · obtain ⟨rfl, -⟩ | ⟨n, rfl, -⟩ := outcomeOf_tables hi.symm
      · exact .inl hdecode
      · exact .inr ⟨n, hdecode⟩
    · cases hillegal

/-- Settles O31: of the steps that are neither reset nor under reset, only a commit can change the tables. -/
theorem tablesChangeOnlyByLoadOrReset : Obligations.TablesChangeOnlyByLoadOrReset := by
  intro s t h hne
  cases step_cases h with
  | reset rest ha => exact .inl ⟨rest, ha⟩
  | held hr => exact .inr (.inl hr)
  | release _ _ heq => simp [heq] at hne
  | idle _ _ _ _ heq => simp [heq] at hne
  | commit hr hbusy rest _ hc =>
    exact .inr (.inr ⟨⟨hbusy, hr⟩, complete_tables_changed (s := { s with agenda := rest }) hc hne⟩)
  | nothing _ _ _ _ _ _ heq => simp [heq] at hne
  | write _ v rest a _ _ _ _ heq =>
    subst heq
    obtain ⟨hfwd, hrev⟩ := writeReg_tables (regAt a) v { s with agenda := rest }
    exact absurd hne (by simp [memWrite, hfwd, hrev])

/-- Settles O36: the check passes, so the staged bytes and their reverse table are committed. -/
theorem alphaLoadCommitsAValidAlphabet : Obligations.AlphaLoadCommitsAValidAlphabet := by
  intro s hgood
  have hcheck := validAlphabet_staged_ok hgood
  obtain ⟨t, ht, hframe, hfwd, hrev⟩ := exec_loads_tables (outcomeOf_alphaLoad_of_check (n := 62) hcheck)
  refine ⟨t, ht, hframe, ?_, ?_⟩
  · rw [hfwd]
    exact stagedSymbols_getElem s
  · rw [hrev, hfwd]
    exact reverseOf_buildRev (validAlphabet_of_check hcheck)

/-- Settles O37: the check raises CFG_LENGTH first, then the first bad index's error. -/
theorem alphaLoadReportsTheFirstFault : Obligations.AlphaLoadReportsTheFirstFault := by
  refine ⟨fun n s hn => ?_, fun s i hi hgood hbad => ?_⟩
  · have hlen : n.toNat ≠ 62 := fun h => hn (BitVec.eq_of_toNat_eq h)
    exact exec_of_outcome_raise (outcomeOf_alphaLoad_of_error (validAlphabet_of_length_ne hlen _))
  · exact exec_of_outcome_raise
      (outcomeOf_alphaLoad_of_error (n := 62) (validAlphabet_staged_first_fault hi hgood hbad))

/-- Settles O38. -/
theorem buildRevInvertsAValidAlphabet : Obligations.BuildRevInvertsAValidAlphabet := fun _ => reverseOf_buildRev

/-- Settles O57: a success writes the two tables, and an error no table at all. -/
theorem alphabetLoadsStoreToTheTablesOnly : Obligations.AlphabetLoadsStoreToTheTablesOnly := by
  intro i s hi
  obtain ⟨f, ho⟩ | ⟨e, ho⟩ := outcomeOf_alphabetLoad hi s
  · refine ⟨_, exec_of_outcome_tables ho, rfl, rfl, fun a h1 h2 h3 => ?_⟩
    exact windowByte_congr a rfl rfl rfl h1 h2 (.inl rfl) (.inl rfl) (.inr h3)
  · refine ⟨_, exec_eq_commit i s, ?_⟩
    rw [ho, commit_error]
    refine ⟨rfl, rfl, fun a h1 h2 _ => ?_⟩
    exact windowByte_congr a rfl rfl rfl h1 h2 (.inl rfl) (.inl rfl) (.inl ⟨rfl, rfl⟩)

/-- Settles O35: its outcome writes the default alphabet, which is also the alphabet after reset. -/
theorem alphaDefLoadsTheDefaultAlphabet : Obligations.AlphaDefLoadsTheDefaultAlphabet := by
  intro s
  have ho : outcomeOf .alphaDef s = .ok ⟨.tables defaultFwd, 62, false⟩ := rfl
  exact exec_loads_tables ho

/-- Settles O39, by whether OPERAND is a digit value. -/
theorem alphaFwdLooksUpTheSymbol : Obligations.AlphaFwdLooksUpTheSymbol := by
  refine fun s => ⟨fun d hd => exec_of_outcome_nothing ?_, fun hrange => exec_of_outcome_raise ?_⟩
  · simp [outcomeOf, performAlphaFwd, hd]
  · have hge : ¬s.operand.toNat < 62 := by omega
    exact dif_neg hge

/-- Settles O40, by whether OPERAND is a code of the reverse table. -/
theorem alphaRevLooksUpTheDigit : Obligations.AlphaRevLooksUpTheDigit := by
  refine fun s => ⟨fun c hc => exec_of_outcome_nothing ?_, fun hrange => exec_of_outcome_nothing ?_⟩
  · simp [outcomeOf, performAlphaRev, hc]
  · have hge : ¬s.operand.toNat < 128 := by omega
    exact dif_neg hge

end Sys2Proof.Machine

/-! The length commands (41_length.md R130 to R137): encLen as a rounded quotient, its inverse, and the two commands. -/

namespace Sys2Proof.Machine

/-! ### encLen -/

/-- encLen(b) is 11b/8 rounded up (R15): the least e with 8e ≥ 11b. -/
theorem encLen_eq_iff {b e : Nat} : encLen b = e ↔ 11 * b ≤ 8 * e ∧ 8 * e < 11 * b + 8 := by
  unfold encLen; omega

/-- A full block of 8 bytes is 11 symbols (R135). -/
theorem encLen_mul_add (q k : Nat) : encLen (8 * q + k) = 11 * q + encLen k := by
  unfold encLen; omega

theorem encLen_strictMono : StrictMono encLen :=
  strictMono_nat_of_lt_succ fun b => by unfold encLen; omega

theorem map_encLen_range : (List.range 9).map encLen = [0, 2, 3, 5, 6, 7, 9, 10, 11] := by decide

/-- The remainders 1, 4 and 8 are no encoded length's: the lengths below one block leave them out (R135). -/
theorem encLen_mod_eleven (b : Nat) : encLen b % 11 ≠ 1 ∧ encLen b % 11 ≠ 4 ∧ encLen b % 11 ≠ 8 := by
  have hpartial : ∀ k < 8, encLen k % 11 ≠ 1 ∧ encLen k % 11 ≠ 4 ∧ encLen k % 11 ≠ 8 := by decide
  rw [← Nat.div_add_mod b 8, encLen_mul_add, Nat.mul_add_mod]
  exact hpartial _ (Nat.mod_lt b (by decide))

/-! ### The checked functions -/

/-- encLenChecked succeeds exactly up to the last byte length whose encoded length is at most LEN_MAX (R131). -/
theorem encLenChecked_of_le {v : Word} (h : v.toNat ≤ 1561806288) : encLenChecked v = .ok (encLen v.toNat) := by
  rw [encLenChecked_eq, if_pos h, encLen]

theorem encLenChecked_of_lt {v : Word} (h : 1561806288 < v.toNat) : encLenChecked v = raise .range 0 := by
  rw [encLenChecked_eq, if_neg (by omega)]

theorem byteLenChecked_of_negative {v : Word} (h : 0x80000000 ≤ v.toNat) : byteLenChecked v = raise .range 0 := by
  rw [byteLenChecked_eq, if_pos (by omega)]

/-- byteLenChecked rejects a length that is no byte length's encoded length (R132). -/
theorem byteLenChecked_of_ne_encLen {v : Word} (hv : v.toNat < 0x80000000) (h : ∀ b, v.toNat ≠ encLen b) :
    byteLenChecked v = raise .lenInvalid 0 := by
  have hraw : (11 * (8 * v.toNat / 11) + 7) / 8 ≠ v.toNat := (h _).symm
  rw [byteLenChecked_eq, if_neg (by omega), if_pos hraw]

/-- byteLenChecked accepts the encoded lengths that are not negative, and gives their byte lengths (R132, R136). -/
theorem byteLenChecked_eq_ok_iff {v : Word} {b : Nat} :
    byteLenChecked v = .ok b ↔ v.toNat < 0x80000000 ∧ v.toNat = encLen b := by
  constructor
  · intro h
    by_cases hv : v.toNat < 0x80000000
    · by_cases hraw : (11 * (8 * v.toNat / 11) + 7) / 8 = v.toNat
      · rw [byteLenChecked_eq, if_neg (by omega), if_neg (not_not.2 hraw)] at h
        cases h
        exact ⟨hv, hraw.symm⟩
      · rw [byteLenChecked_eq, if_neg (by omega), if_pos hraw] at h
        cases h
    · cases (byteLenChecked_of_negative (not_lt.1 hv)).symm.trans h
  · rintro ⟨hv, h⟩
    have hraw : 8 * v.toNat / 11 = b := by rw [h]; exact byteLenRaw_encLen b
    rw [byteLenChecked_eq, if_neg (by omega), hraw, ← encLen, if_neg (not_not.2 h.symm)]

/-- The first half of the round-trip law (R136). -/
theorem byteLenChecked_ofNat_encLen {b : Nat} (h : b ≤ 1561806288) :
    byteLenChecked (BitVec.ofNat 32 (encLen b)) = .ok b := by
  have hup := (encLen_eq_iff.1 (Eq.refl (encLen b))).2
  have hword : (BitVec.ofNat 32 (encLen b)).toNat = encLen b := Nat.mod_eq_of_lt (by omega)
  exact byteLenChecked_eq_ok_iff.2 ⟨by omega, hword⟩

/-- The second half of the round-trip law (R136). -/
theorem encLenChecked_ofNat_of_byteLenChecked {v : Word} {b : Nat} (h : byteLenChecked v = .ok b) :
    encLenChecked (BitVec.ofNat 32 b) = .ok v.toNat := by
  obtain ⟨hv, hb⟩ := byteLenChecked_eq_ok_iff.1 h
  have hlow := (encLen_eq_iff.1 hb.symm).1
  have hword : (BitVec.ofNat 32 b).toNat = b := Nat.mod_eq_of_lt (by omega)
  rw [encLenChecked_of_le (by omega), hword, hb]

/-! ### The commands -/

theorem exec_lenEnc_of_ok {s : State} {e : Nat} (h : encLenChecked s.operand = .ok e) :
    exec .lenEnc s = .next (s.afterCommit (BitVec.ofNat 32 e) .ok 0 false) :=
  exec_of_outcome_nothing (by rw [outcomeOf, h, lengthOutcome])

theorem exec_lenEnc_of_raise {s : State} {code : ErrCode} (h : encLenChecked s.operand = raise code 0) :
    exec .lenEnc s = .next (s.afterCommit 0 code 0 false) :=
  exec_of_outcome_raise (by rw [outcomeOf, h]; rfl)

theorem exec_lenByte_of_ok {s : State} {b : Nat} (h : byteLenChecked s.operand = .ok b) :
    exec .lenByte s = .next (s.afterCommit (BitVec.ofNat 32 b) .ok 0 false) :=
  exec_of_outcome_nothing (by rw [outcomeOf, h, lengthOutcome])

theorem exec_lenByte_of_raise {s : State} {code : ErrCode} (h : byteLenChecked s.operand = raise code 0) :
    exec .lenByte s = .next (s.afterCommit 0 code 0 false) :=
  exec_of_outcome_raise (by rw [outcomeOf, h]; rfl)

/-- A command that commits ECODE = OK had a success to commit: no error carries that code. -/
theorem outcomeOf_of_exec_ecode_ok {i : Instr} {s t : State} (h : exec i s = .next t) (hok : t.status.ecode = .ok) :
    ∃ r, outcomeOf i s = .ok r := by
  cases (exec_eq_commit i s).symm.trans h
  have hfits := outcomeOf_fits i s
  cases ho : outcomeOf i s with
  | ok r => exact ⟨r, rfl⟩
  | error e =>
    rw [ho] at hok hfits
    have hcode : e.code = .ok := hok
    simp [OutcomeFits, ErrorFits, hcode] at hfits

/-- LEN.BYTE commits OK only with an accepted length's byte length in RESULT (R134). -/
theorem exec_lenByte_ok {s t : State} (h : exec .lenByte s = .next t) (hok : t.status.ecode = .ok) :
    ∃ b, byteLenChecked s.operand = .ok b ∧ t.result = BitVec.ofNat 32 b := by
  obtain ⟨r, hr⟩ := outcomeOf_of_exec_ecode_ok h hok
  cases hb : byteLenChecked s.operand with
  | ok b =>
    cases (exec_lenByte_of_ok hb).symm.trans h
    exact ⟨b, rfl, rfl⟩
  | error e =>
    rw [outcomeOf, hb] at hr
    cases hr

/-! ### The statements -/

/-- Settles O41: encLen is the one e within the bounds. -/
theorem lenEncRoundsUpElevenEighths : Obligations.LenEncRoundsUpElevenEighths := by
  refine fun s => ⟨fun e hle hlow hup => ?_, fun h => exec_lenEnc_of_raise (encLenChecked_of_lt h)⟩
  rw [← encLen_eq_iff.2 ⟨hlow, hup⟩]
  exact exec_lenEnc_of_ok (encLenChecked_of_le hle)

/-- Settles O42: r is encLen(t) in the table's valid columns, and no encoded length's remainder in the others. -/
theorem lenByteInvertsValidLengths : Obligations.LenByteInvertsValidLengths := by
  refine ⟨fun s => ⟨fun h => exec_lenByte_of_raise (byteLenChecked_of_negative h),
    fun q r hs hqr => ⟨fun hr => exec_lenByte_of_raise ?_, fun t ht => exec_lenByte_of_ok ?_⟩⟩,
    fun q k _ => encLen_mul_add q k, map_encLen_range⟩
  · exact byteLenChecked_of_ne_encLen hs fun b hb => absurd (encLen_mod_eleven b) (by omega)
  · have htable : ∀ p ∈ [(0, 0), (2, 1), (3, 2), (5, 3), (6, 4), (7, 5), (9, 6), (10, 7)], p.1 = encLen p.2 := by decide
    have hr : r = encLen t := htable (r, t) ht
    exact byteLenChecked_eq_ok_iff.2 ⟨hs, by rw [hqr, encLen_mul_add, hr]⟩

/-- Settles O43: each command's RESULT, put into OPERAND, is a length of which the other gives the old OPERAND. -/
theorem lengthCommandsInvertEachOther : Obligations.LengthCommandsInvertEachOther := by
  refine ⟨fun s hs => ⟨_, exec_lenEnc_of_ok (encLenChecked_of_le hs), rfl, ?_⟩, fun s t h hok => ?_,
    fun _ _ h => encLen_strictMono h⟩
  · rw [exec_lenByte_of_ok (b := s.operand.toNat), BitVec.ofNat_toNat, BitVec.setWidth_eq]
    exact byteLenChecked_ofNat_encLen hs
  · obtain ⟨b, hb, hresult⟩ := exec_lenByte_ok h hok
    rw [exec_lenEnc_of_ok (e := s.operand.toNat), BitVec.ofNat_toNat, BitVec.setWidth_eq]
    exact hresult ▸ encLenChecked_ofNat_of_byteLenChecked hb

/-- Settles O44: the three other counts leave a remainder that no encoded length has; the powers are compared as numbers. -/
theorem symbolCountsAreTheSmallest : Obligations.SymbolCountsAreTheSmallest := by
  refine ⟨map_encLen_range, fun k => byteLenChecked_ofNat_encLen (by omega), fun j hj => ?_, by decide⟩
  have hmod : j.val % 11 = 1 ∨ j.val % 11 = 4 ∨ j.val % 11 = 8 := by revert j; decide
  have hword : (BitVec.ofNat 32 j.val).toNat = j.val := Nat.mod_eq_of_lt (by omega)
  exact byteLenChecked_of_ne_encLen (by omega) fun b hb => absurd (encLen_mod_eleven b) (by omega)

end Sys2Proof.Machine

/-! The encoder command (42_encode.md R150 to R155): the state ENC.BLK leaves, the digits it shows, and how one more in the
last byte or another alphabet changes its symbols. -/

namespace Sys2Proof.Machine

/-! ### The state after ENC.BLK -/

/-- The digit value of weight 62^q in the value of DBUF[0..k-1] (R150). -/
def blockDigit (k q : Nat) (s : State) : Digit := Fin.ofNat 62 (blockValue k s / 62 ^ q)

theorem blockDigit_congr {k : Nat} {s s' : State} (h : ∀ i < k, s'.dbuf[i]? = s.dbuf[i]?) (q : Nat) :
    blockDigit k q s' = blockDigit k q s := by
  rw [blockDigit, blockDigit, blockValue_congr h]

/-- The state `s` after ENC.BLK of k bytes: its lanes hold the symbols of the block's digits, most significant first
(R151, R152). -/
def State.afterEncBlk (k : Nat) (s : State) : State :=
  { s.afterCommit (BitVec.ofNat 32 (encLen k)) .ok 0 false with
    sym := Vector.ofFn fun p : Fin 11 =>
      if p.val < encLen k then laneOf s.fwd[blockDigit k (encLen k - 1 - p.val) s] else s.sym[p] }

theorem afterEncBlk_sym (k : Nat) (s : State) (p : Fin 11) :
    (s.afterEncBlk k).sym[p] =
      if p.val < encLen k then laneOf s.fwd[blockDigit k (encLen k - 1 - p.val) s] else s.sym[p] := by
  simp [State.afterEncBlk]

theorem afterEncBlk_sym_of_lt {k : Nat} (s : State) (p : Fin 11) (hp : p.val < encLen k) :
    (s.afterEncBlk k).sym[p] = laneOf s.fwd[blockDigit k (encLen k - 1 - p.val) s] :=
  (afterEncBlk_sym k s p).trans (if_pos hp)

theorem digits_be_getElem {k p : Nat} (s : State) (hk : k ≤ 8) (hp : p < encLen k) :
    (digits (encLen k) (be (dataBytes k s)))[p]'(by rwa [digits_length]) = blockDigit k (encLen k - 1 - p) s := by
  rw [digits_get _ _ _ hp, ← blockValue_eq s hk, blockDigit]

theorem encBlock_dataBytes_getElem {k p : Nat} (s : State) (hk : k ≤ 8) (hp : p < encLen k) :
    (encBlock (dataBytes k s) s.fwd)[p]'(by rwa [encBlock_dataBytes_length s hk]) =
      s.fwd[blockDigit k (encLen k - 1 - p) s] := by
  simp only [encBlock, dataBytes_length s hk, List.getElem_map, digits_be_getElem s hk hp]

/-- ENC.BLK of at most 8 bytes stores the encoder's list, lane by lane, and commits OK (R151). -/
theorem exec_encBlk {k : BitVec 8} (hk : k.toNat ≤ 8) (s : State) :
    exec (.encBlk k) s = .next (s.afterEncBlk k.toNat) := by
  have hsym : storeFrom 0 ((encBlock (dataBytes k.toNat s) s.fwd).map laneOf) s.sym = (s.afterEncBlk k.toNat).sym := by
    ext1 p hp
    rw [storeFrom_get 0 _ _ p hp]
    refine Eq.trans ?_ (afterEncBlk_sym k.toNat s ⟨p, hp⟩).symm
    simp only [List.length_map, encBlock_dataBytes_length s hk, Nat.zero_le, true_and, Nat.zero_add]
    split_ifs with hlt
    · simp only [Nat.sub_zero, List.getElem_map, encBlock_dataBytes_getElem s hk hlt]
    · rfl
  rw [exec_eq_commit, outcomeOf_encBlk hk, commit_ok, committed_eq, applyWrites, hsym]
  rfl

/-- A lane keeps its whole symbol byte (R152). -/
theorem laneOf_injective : Function.Injective laneOf := fun a b h => by
  have hnat := congrArg BitVec.toNat h
  simp only [laneOf, BitVec.toNat_setWidth] at hnat
  apply BitVec.eq_of_toNat_eq
  omega

/-- Two commands of the same COUNT write the same lane exactly when the two tables give the same symbol there. -/
theorem afterEncBlk_sym_eq_iff {k : Nat} (s s' : State) (p : Fin 11) (hp : p.val < encLen k) :
    (s.afterEncBlk k).sym[p] = (s'.afterEncBlk k).sym[p] ↔
      s.fwd[blockDigit k (encLen k - 1 - p.val) s] = s'.fwd[blockDigit k (encLen k - 1 - p.val) s'] := by
  rw [afterEncBlk_sym_of_lt s p hp, afterEncBlk_sym_of_lt s' p hp, laneOf_injective.eq_iff]

/-! ### Bounds of the block value -/

theorem blockValue_lt {k : Nat} (s : State) (hk : k ≤ 8) : blockValue k s < 256 ^ k := by
  have hlt := be_lt (dataBytes k s)
  rwa [dataBytes_length s hk, ← blockValue_eq s hk] at hlt

/-- encLen(k) digits suffice for k bytes (R137). -/
theorem pow_le_pow_encLen {k : Nat} (hk : k ≤ 8) : 256 ^ k ≤ 62 ^ encLen k := by
  obtain ⟨-, -, -, hcounts⟩ := symbolCountsAreTheSmallest
  exact (hcounts ⟨k, by omega⟩).1

/-! ### Adding one -/

/-- The greatest remainder is the one whose successor leaves none: n digits 61 become n digits 0. -/
theorem mod_eq_sub_one_iff_dvd {m v : Nat} (hm : 0 < m) : v % m = m - 1 ↔ m ∣ v + 1 := by
  have hlt := Nat.mod_lt v hm
  have hrest : m ∣ v + 1 ↔ m ∣ v % m + 1 := by
    conv_lhs => rw [← Nat.div_add_mod v m, Nat.add_assoc, Nat.dvd_add_right (Nat.dvd_mul_right _ _)]
  rw [hrest]
  refine ⟨fun h => ⟨1, by omega⟩, fun h => ?_⟩
  have hle := Nat.le_of_dvd (Nat.succ_pos _) h
  omega

/-- Adding one changes a digit exactly when it carries into its place: when the new value ends in zeros below it. -/
theorem ofNat_div_succ_eq_iff (v q : Nat) :
    (Fin.ofNat 62 ((v + 1) / q) : Digit) = Fin.ofNat 62 (v / q) ↔ ¬q ∣ v + 1 := by
  rw [Nat.succ_div, Fin.ext_iff, Fin.val_ofNat, Fin.val_ofNat]
  split_ifs with h
  · simp only [h, not_true, iff_false]
    omega
  · simp [h]

/-- The last byte below 255 and one more in it: the block's value is one more (R11). -/
theorem blockValue_succ_of_last_byte {m : Nat} {s s' : State} (hsame : ∀ i < m, s'.dbuf[i]? = s.dbuf[i]?)
    (hlt : (s.dbuf[m]?.getD 0).toNat < 255) (hlast : s'.dbuf[m]? = some (s.dbuf[m]?.getD 0 + 1)) :
    blockValue (m + 1) s' = blockValue (m + 1) s + 1 := by
  have hbyte : (s.dbuf[m]?.getD 0 + 1).toNat = (s.dbuf[m]?.getD 0).toNat + 1 :=
    BitVec.toNat_add_of_lt (Nat.add_lt_add_right hlt 1)
  rw [blockValue_succ, blockValue_succ, blockValue_congr hsame, hlast, Option.getD_some, hbyte, Nat.add_assoc]

/-- An incremented block does not end in eight digits 0: its last byte would be 0 (R154). -/
theorem lt_eight_of_pow_dvd_blockValue_succ {m n : Nat} {s : State} (hlt : (s.dbuf[m]?.getD 0).toNat < 255)
    (hdvd : 62 ^ n ∣ blockValue (m + 1) s + 1) : n < 8 := by
  by_contra hn
  have hbytes : 256 ∣ blockValue (m + 1) s + 1 :=
    ((by decide : 256 ∣ 62 ^ 8).trans (pow_dvd_pow 62 (not_lt.1 hn))).trans hdvd
  rw [blockValue_succ] at hbytes
  omega

/-! ### The statements -/

/-- Settles O45: the state after the command says it lane by lane. -/
theorem encBlkWritesTheDigitsOfTheValue : Obligations.EncBlkWritesTheDigitsOfTheValue :=
  fun k s hk => ⟨_, exec_encBlk hk s, rfl, afterEncBlk_sym k.toNat s⟩

/-- Settles O46: the value is below 62^encLen(k), so the digit string's positional value is the value itself. -/
theorem encoderLosesNoValue : Obligations.EncoderLosesNoValue := by
  intro k s hk v e T
  have hvalue : v = blockValue k.toNat s := (blockValue_eq s hk).symm
  have hlt : v < 256 ^ k.toNat := hvalue ▸ blockValue_lt s hk
  have hpow : 256 ^ k.toNat ≤ 62 ^ e := pow_le_pow_encLen hk
  have hword : 256 ^ k.toNat ≤ 2 ^ 64 := Nat.pow_le_pow_right (by decide) hk
  have hlen : T.length = e := digits_length e v
  have hfits : v < 62 ^ e := hlt.trans_le hpow
  refine ⟨hvalue, hlt, hpow, hlt.trans_le hword, Nat.div_eq_of_lt hfits, hlen, ?_, _, exec_encBlk hk s, fun p hp => ?_⟩
  · have hsum := positional_eq_sum 62 (T.map Fin.val)
    rw [positional_digits, Nat.mod_eq_of_lt hfits, List.length_map, hlen] at hsum
    have hval (i : Nat) : (T.map Fin.val)[i]?.getD 0 = (T[i]?.getD 0).val := by
      rw [List.getElem?_map]
      exact Option.getD_map Fin.val 0 T[i]?
    simpa only [hval] using hsum.symm
  · have hdigit : T[p.val]?.getD 0 = blockDigit k.toNat (e - 1 - p.val) s := by
      rw [List.getElem?_eq_getElem (hlen ▸ hp), Option.getD_some]
      exact digits_be_getElem s hk hp
    simp only [hdigit]
    exact afterEncBlk_sym_of_lt s p hp

/-- Settles O47: equal bytes give equal digits, and equal tables equal symbols. -/
theorem encBlkDependsOnItsBlockAndFwdOnly : Obligations.EncBlkDependsOnItsBlockAndFwdOnly := by
  intro k s s' hk hfwd hbytes
  have hdigit := blockDigit_congr hbytes
  refine ⟨_, _, exec_encBlk hk s, exec_encBlk hk s', rfl, rfl, fun p hp => ?_⟩
  simp only [afterEncBlk_sym_eq_iff s s' p hp, hfwd, hdigit]

/-- Settles O48: the value grows by one, and the carry reaches digit q exactly when 62^q divides the new value. -/
theorem incrementChangesTheTrailingSymbols : Obligations.IncrementChangesTheTrailingSymbols := by
  intro k s s' n hinv hfwd hk1 hk hsame hlt hlast hones hmore
  obtain ⟨m, hm⟩ : ∃ m, k.toNat = m + 1 := ⟨k.toNat - 1, by omega⟩
  rw [show k.toNat - 1 = m by omega] at hlt hlast
  have hvalue : blockValue k.toNat s' = blockValue k.toNat s + 1 := by
    rw [hm]
    exact blockValue_succ_of_last_byte (fun i hi => hsame i (by omega)) hlt hlast
  rw [mod_eq_sub_one_iff_dvd (by positivity)] at hones
  rw [Ne, mod_eq_sub_one_iff_dvd (by positivity)] at hmore
  have hcarry (q : Nat) : 62 ^ q ∣ blockValue k.toNat s + 1 ↔ q ≤ n :=
    ⟨fun hq => not_lt.1 fun hn => hmore ((pow_dvd_pow 62 hn).trans hq), fun hq => (pow_dvd_pow 62 hq).trans hones⟩
  have hne : n < encLen k.toNat := by
    by_contra hn
    have hle := Nat.le_of_dvd (by omega) ((hcarry _).2 (not_lt.1 hn))
    have hbound := (blockValue_lt s' hk).trans_le (pow_le_pow_encLen hk)
    omega
  refine ⟨hne, ?_, _, _, exec_encBlk hk s, exec_encBlk hk s', fun p hp => ?_⟩
  · rw [hm] at hones
    exact Nat.le_of_lt_succ (lt_eight_of_pow_dvd_blockValue_succ hlt hones)
  · obtain ⟨⟨-, hinj⟩, -⟩ := hinv
    have hsym (d d' : Fin 62) : s.fwd[d] = s.fwd[d'] ↔ d = d' := ⟨hinj d d', fun h => by simp only [h]⟩
    rw [Ne, afterEncBlk_sym_eq_iff s s' p hp, hfwd, hsym, blockDigit, blockDigit, hvalue, eq_comm,
      ofNat_div_succ_eq_iff, not_not, hcarry]
    omega

/-- Settles O49: lane p shows the digit of weight encLen(k) - 1 - p, and the weights are the same numbers backwards. -/
theorem alphabetsAgreeExactlyOnTheDigitsUsed : Obligations.AlphabetsAgreeExactlyOnTheDigitsUsed := by
  intro k s s' hk hdbuf
  have hdigit := blockDigit_congr (k := k.toNat) (s := s) (s' := s') fun i _ => by rw [hdbuf]
  refine ⟨_, _, exec_encBlk hk s, exec_encBlk hk s', fun hsym q hq d hd => ?_, fun hagree p hp => ?_⟩
  · have he : encLen k.toNat ≤ 11 := encLen_strictMono.monotone hk
    obtain ⟨p, hp, rfl⟩ : ∃ p : Fin 11, p.val < encLen k.toNat ∧ encLen k.toNat - 1 - p.val = q :=
      ⟨⟨encLen k.toNat - 1 - q, by omega⟩, by simp only; omega, by simp only; omega⟩
    obtain rfl : d = blockDigit k.toNat _ s := Fin.ext hd
    have hlane := (afterEncBlk_sym_eq_iff s s' p hp).1 (hsym p hp)
    simpa only [hdigit] using hlane
  · simp only [afterEncBlk_sym_eq_iff s s' p hp, hdigit]
    exact hagree _ (by omega) _ rfl

end Sys2Proof.Machine

/-! The decoder command (43_decode.md R170 to R178): the state DEC.BLK leaves, the value its lanes spell, and that the strings
it takes without loss are the encoder's outputs. -/

namespace Sys2Proof.Machine

/-! ### Digit strings and their values -/

theorem positional_map_range (r n : Nat) (f : Nat → Nat) :
    positional r ((List.range n).map f) = ((List.range n).map fun i => f i * r ^ (n - 1 - i)).sum := by
  rw [positional_eq_sum, List.length_map, List.length_range]
  congr 1
  apply List.map_congr_left
  intro i hi
  simp [List.mem_range.1 hi]

/-- A value below r^n has exactly one string of n digits below r (R11, R173). -/
theorem positional_map_range_eq_iff {r n v : Nat} {f : Nat → Nat} (hf : ∀ i < n, f i < r) (hv : v < r ^ n) :
    positional r ((List.range n).map f) = v ↔ ∀ i < n, f i = v / r ^ (n - 1 - i) % r := by
  constructor
  · rintro rfl i hi
    have hdigits : ∀ d ∈ (List.range n).map f, d < r := fun d hd => by
      obtain ⟨i, hi, rfl⟩ := List.mem_map.1 hd
      exact hf i (List.mem_range.1 hi)
    have hdigit := positional_digit r _ hdigits i (by simpa using hi)
    simpa using hdigit.symm
  · intro h
    have hlist : (List.range n).map f = (List.range n).map fun i => v / r ^ (n - 1 - i) % r :=
      List.map_congr_left fun i hi => h i (List.mem_range.1 hi)
    rw [hlist, positional_range, Nat.mod_eq_of_lt hv]

theorem symbolValue_eq_iff {j v : Nat} {s : State} (hdigit : ∀ p < j, laneDigit p s < 62) (hv : v < 62 ^ j) :
    symbolValue j s = v ↔ ∀ p < j, laneDigit p s = v / 62 ^ (j - 1 - p) % 62 := by
  rw [symbolValue, ← positional_map_range, positional_map_range_eq_iff hdigit hv]

theorem blockValue_eq_iff {k v : Nat} {s : State} (hv : v < 256 ^ k) :
    blockValue k s = v ↔ ∀ i < k, (s.dbuf[i]?.getD 0).toNat = v / 256 ^ (k - 1 - i) % 256 := by
  have hbyte : ∀ i < k, (s.dbuf[i]?.getD 0).toNat < 256 := fun i _ => BitVec.isLt _
  rw [blockValue, ← positional_map_range, positional_map_range_eq_iff hbyte hv]

/-- A byte of a block, from the block's value (R11). -/
theorem dbuf_getElem_eq_ofNat {k : Nat} (s : State) (hk : k ≤ 8) (i : Fin 8) (hi : i.val < k) :
    s.dbuf[i] = BitVec.ofNat 8 (blockValue k s / 256 ^ (k - 1 - i.val)) := by
  have hbyte := (blockValue_eq_iff (blockValue_lt s hk)).1 rfl i hi
  apply BitVec.eq_of_toNat_eq
  simpa using hbyte

/-- Two blocks with the same value agree on their bytes (R11). -/
theorem dbuf_getElem?_eq_of_blockValue_eq {k : Nat} {s u : State} (hk : k ≤ 8) (h : blockValue k s = blockValue k u)
    (i : Nat) (hi : i < k) : s.dbuf[i]? = u.dbuf[i]? := by
  have hi8 : i < 8 := hi.trans_le hk
  have hbyte (x : State) := dbuf_getElem_eq_ofNat x hk ⟨i, hi8⟩ hi
  rw [Vector.getElem?_eq_getElem hi8, Vector.getElem?_eq_getElem hi8]
  exact congrArg some ((hbyte s).trans (h ▸ (hbyte u).symm))

/-! ### The outcome of DEC.BLK -/

theorem accumulate_symbolLanes_of_valid {j : Nat} {s : State} (hj : j ≤ 11) (h : ∀ i < j, LaneValid i s) :
    accumulate s.rev 0 0 (symbolLanes j s) = .ok (symbolValue j s) := by
  have hgood : ∀ c ∈ symbolLanes j s, GoodLane s.rev c := fun c hc => by
    obtain ⟨i, hi, rfl⟩ := List.getElem_of_mem hc
    rw [symbolLanes_length s hj] at hi
    rw [symbolLanes_getElem s hj hi]
    exact h i hi
  rw [accumulate_good hgood, Nat.zero_mul, Nat.zero_add, ← symbolValue_eq s hj]

theorem accumulate_symbolLanes_of_first_invalid {j i : Nat} {s : State} (hj : j ≤ 11) (hi : i < j)
    (hgood : ∀ h < i, LaneValid h s) (hbad : ¬LaneValid i s) :
    accumulate s.rev 0 0 (symbolLanes j s) =
      raise (if (s.sym[i]?.getD 0).toNat > 127 then .symRange else .symInvalid) i := by
  have hlane {h : Nat} (hh : h < j) := symbolLanes_getElem s hj hh
  have hstop := accumulate_bad (rev := s.rev) (l := symbolLanes j s) i (by rwa [symbolLanes_length s hj])
    (fun h hh => by rw [hlane (hh.trans hi)]; exact hgood h hh) (by rwa [hlane hi]) 0 0
  rwa [hlane hi, Nat.zero_add] at hstop

theorem outcomeOf_decBlk_of_length_error {j : BitVec 8} {e : CmdError} (hj : j.toNat ≤ 11)
    (h : byteLenChecked (countWord j) = .error e) (s : State) : outcomeOf (.decBlk j) s = .error e := by
  rw [outcomeOf, performDecBlk, countValue, if_pos hj, h]

section
variable {j : BitVec 8} {b : Nat} (hb : b ≤ 8) (hj : j.toNat = encLen b) {s : State}
include hb hj

theorem count_le_eleven_of_encLen : j.toNat ≤ 11 := hj ▸ encLen_strictMono.monotone hb

theorem outcomeOf_decBlk_of_symbol_error {e : CmdError}
    (h : accumulate s.rev 0 0 (symbolLanes j.toNat s) = .error e) : outcomeOf (.decBlk j) s = .error e := by
  rw [outcomeOf, performDecBlk, countValue, if_pos (count_le_eleven_of_encLen hb hj), byteLenChecked_encLen hb hj]
  simp only [h]

/-- A valid length of valid symbols leaves the truncation policy to decide (R170, R173). -/
theorem outcomeOf_decBlk_of_valid (h : ∀ i < j.toNat, LaneValid i s) :
    outcomeOf (.decBlk j) s = outputBytes s.ctrl.strict b (symbolValue j.toNat s) := by
  have hle := count_le_eleven_of_encLen hb hj
  rw [outcomeOf, performDecBlk, countValue, if_pos hle, byteLenChecked_encLen hb hj]
  simp only [accumulate_symbolLanes_of_valid hle h]

end

/-! ### The state after DEC.BLK -/

/-- The state `s` after a DEC.BLK that writes the low b bytes of the value v, big-endian (R174). -/
def State.afterDecBlk (b v : Nat) (s : State) : State :=
  { s.afterCommit (BitVec.ofNat 32 b) .ok 0 (decide (256 ^ b ≤ v)) with
    dbuf := Vector.ofFn fun i : Fin 8 =>
      if i.val < b then BitVec.ofNat 8 (v % 256 ^ b / 256 ^ (b - 1 - i.val)) else s.dbuf[i] }

theorem afterDecBlk_dbuf (b v : Nat) (s : State) (i : Fin 8) :
    (s.afterDecBlk b v).dbuf[i] =
      if i.val < b then BitVec.ofNat 8 (v % 256 ^ b / 256 ^ (b - 1 - i.val)) else s.dbuf[i] := by
  simp [State.afterDecBlk]

/-- The bytes DEC.BLK writes have the value it decoded, when that fits them (R174). -/
theorem blockValue_afterDecBlk {b v : Nat} (s : State) (hb : b ≤ 8) (hv : v < 256 ^ b) :
    blockValue b (s.afterDecBlk b v) = v := by
  refine (blockValue_eq_iff hv).2 fun i hi => ?_
  have hbyte := afterDecBlk_dbuf b v s ⟨i, hi.trans_le hb⟩
  rw [if_pos hi, Nat.mod_eq_of_lt hv] at hbyte
  rw [Vector.getElem?_eq_getElem (hi.trans_le hb), Option.getD_some]
  exact congrArg BitVec.toNat hbyte

/-- The commit of a success of the truncation policy (R174, R175). -/
theorem commit_outputBytes {strict : Bool} {b v : Nat} (h : v < 256 ^ b ∨ strict = false) (s : State) :
    commit (outputBytes strict b v) s = s.afterDecBlk b v := by
  have hpolicy : ¬(v ≥ 256 ^ b ∧ strict = true) := fun ⟨hge, hstrict⟩ =>
    h.elim (not_lt.2 hge) (by simp [hstrict])
  have hdbuf : storeFrom 0 (toBE (v % 256 ^ b) b) s.dbuf = (s.afterDecBlk b v).dbuf := by
    ext1 i hi
    rw [storeFrom_get 0 _ _ i hi]
    refine Eq.trans ?_ (afterDecBlk_dbuf b v s ⟨i, hi⟩).symm
    simp only [toBE_length, Nat.zero_le, true_and, Nat.zero_add]
    split_ifs with hlt
    · exact toBE_get _ b i hlt
    · rfl
  rw [outputBytes, if_neg hpolicy, commit_ok, committed_eq, applyWrites, hdbuf]
  rfl

theorem commit_outputBytes_nonCanon {b v : Nat} (h : 256 ^ b ≤ v) (s : State) :
    commit (outputBytes true b v) s = s.afterCommit 0 .nonCanon 0 true := by
  rw [outputBytes, if_pos ⟨h, rfl⟩, commit_error, committed_eq]
  rfl

section
variable {j : BitVec 8} {b : Nat} (hb : b ≤ 8) (hj : j.toNat = encLen b) {s : State}
include hb hj

/-- A value that fits, or any value without STRICT, is written (R174, R175). -/
theorem exec_decBlk_writes (hvalid : ∀ i < j.toNat, LaneValid i s)
    (h : symbolValue j.toNat s < 256 ^ b ∨ s.ctrl.strict = false) :
    exec (.decBlk j) s = .next (s.afterDecBlk b (symbolValue j.toNat s)) := by
  rw [exec_eq_commit, outcomeOf_decBlk_of_valid hb hj hvalid, commit_outputBytes h]

theorem exec_decBlk_nonCanon (hvalid : ∀ i < j.toNat, LaneValid i s) (h : 256 ^ b ≤ symbolValue j.toNat s)
    (hstrict : s.ctrl.strict = true) : exec (.decBlk j) s = .next (s.afterCommit 0 .nonCanon 0 true) := by
  rw [exec_eq_commit, outcomeOf_decBlk_of_valid hb hj hvalid, hstrict, commit_outputBytes_nonCanon h]

theorem exec_decBlk_of_first_invalid {i : Nat} (hi : i < j.toNat) (hgood : ∀ h < i, LaneValid h s)
    (hbad : ¬LaneValid i s) :
    exec (.decBlk j) s = .next (s.afterCommit 0
      (if (s.sym[i]?.getD 0).toNat > 127 then .symRange else .symInvalid) i false) :=
  exec_of_outcome_raise (outcomeOf_decBlk_of_symbol_error hb hj
    (accumulate_symbolLanes_of_first_invalid (count_le_eleven_of_encLen hb hj) hi hgood hbad))

/-- A DEC.BLK that commits OK met no invalid symbol: it would have failed at the first one (R172). -/
theorem laneValid_of_exec_decBlk_ok {t : State} (ht : exec (.decBlk j) s = .next t) (hok : t.status.ecode = .ok) :
    ∀ i < j.toNat, LaneValid i s := by
  intro i
  induction i using Nat.strongRecOn with
  | ind i ih =>
    intro hi
    by_contra hbad
    have hgood : ∀ h < i, LaneValid h s := fun h hh => ih h hh (hh.trans hi)
    cases (exec_decBlk_of_first_invalid hb hj hi hgood hbad).symm.trans ht
    have hcode : (if (s.sym[i]?.getD 0).toNat > 127 then ErrCode.symRange else .symInvalid) = .ok := hok
    split_ifs at hcode

/-- What a DEC.BLK that commits OK decoded: valid symbols, with a value that fits or without STRICT (R172, R175). -/
theorem exec_decBlk_ok {t : State} (ht : exec (.decBlk j) s = .next t) (hok : t.status.ecode = .ok) :
    (∀ i < j.toNat, LaneValid i s) ∧ (symbolValue j.toNat s < 256 ^ b ∨ s.ctrl.strict = false) := by
  have hvalid := laneValid_of_exec_decBlk_ok hb hj ht hok
  refine ⟨hvalid, ?_⟩
  by_contra h
  obtain ⟨hge, hstrict⟩ := not_or.1 h
  cases (exec_decBlk_nonCanon hb hj hvalid (not_lt.1 hge) (by simpa using hstrict)).symm.trans ht
  cases hok

/-- Valid symbols whose value does not fit set TRUNC, with STRICT and without (R175). -/
theorem exec_decBlk_trunc (hvalid : ∀ i < j.toNat, LaneValid i s) (h : 256 ^ b ≤ symbolValue j.toNat s) :
    ∃ t, exec (.decBlk j) s = .next t ∧ t.status.trunc = true := by
  cases hstrict : s.ctrl.strict with
  | false => exact ⟨_, exec_decBlk_writes hb hj hvalid (.inr hstrict), decide_eq_true h⟩
  | true => exact ⟨_, exec_decBlk_nonCanon hb hj hvalid h hstrict, rfl⟩

end

/-! ### Lanes and symbols of the alphabet -/

theorem laneOf_toNat (b : Byte) : (laneOf b).toNat = b.toNat := by
  have hlt := b.isLt
  simp only [laneOf, BitVec.toNat_setWidth]
  omega

/-- A valid lane holds the symbol of some digit (R40, R172). -/
theorem symbol_of_laneValid {s : State} {f : Vector Byte 62} (hrev : ReverseOf f s.rev) {p : Nat} (h : LaneValid p s) :
    ∃ d : Digit, s.sym[p]?.getD 0 = laneOf f[d] := by
  obtain ⟨hascii, hlisted⟩ := h
  have hcode : (s.sym[p]?.getD 0).toNat < 128 := Nat.lt_succ_of_le hascii
  rw [Vector.getElem?_eq_getElem hcode, Option.getD_some] at hlisted
  have hmem := mt (hrev.2 ⟨_, hcode⟩) hlisted
  simp only [not_forall, not_not] at hmem
  obtain ⟨d, hd⟩ := hmem
  exact ⟨d, BitVec.eq_of_toNat_eq ((laneOf_toNat _).trans hd).symm⟩

section
variable {s : State} {f : Vector Byte 62} (hf : ValidAlphabet f) (hrev : ReverseOf f s.rev)
include hf hrev

/-- A lane that holds a digit's symbol is valid and gives that digit back (R40, R172). -/
theorem laneValid_and_laneDigit_of_symbol {p : Nat} {d : Digit} (h : s.sym[p]?.getD 0 = laneOf f[d]) :
    LaneValid p s ∧ laneDigit p s = d.val := by
  have hascii : f[d].toNat ≤ 127 := (hf.1 d).2
  have hdigit : s.rev[(s.sym[p]?.getD 0).toNat]?.getD 0 = BitVec.ofNat 8 d.val := by
    rw [h, laneOf_toNat, hrev.1 d, Option.getD_some]
  have hval : laneDigit p s = d.val := by
    rw [laneDigit, hdigit, BitVec.toNat_ofNat]
    omega
  refine ⟨⟨by rwa [h, laneOf_toNat], fun hmarker => ?_⟩, hval⟩
  have hmarkerVal : laneDigit p s = 255 := congrArg BitVec.toNat hmarker
  omega

theorem laneDigit_lt_of_laneValid {p : Nat} (h : LaneValid p s) : laneDigit p s < 62 := by
  obtain ⟨d, hd⟩ := symbol_of_laneValid hrev h
  obtain ⟨-, hdigit⟩ := laneValid_and_laneDigit_of_symbol hf hrev hd
  exact hdigit ▸ d.isLt

/-- A lane holds a digit's symbol exactly when it is valid and stands for that digit. -/
theorem sym_eq_laneOf_iff (p : Fin 11) (d : Digit) :
    s.sym[p] = laneOf f[d] ↔ LaneValid p s ∧ laneDigit p s = d.val := by
  have hlane : s.sym[p.val]?.getD 0 = s.sym[p] := by simp
  rw [← hlane]
  refine ⟨laneValid_and_laneDigit_of_symbol hf hrev, fun ⟨hvalid, hdigit⟩ => ?_⟩
  obtain ⟨e, he⟩ := symbol_of_laneValid hrev hvalid
  obtain ⟨-, hdigit'⟩ := laneValid_and_laneDigit_of_symbol hf hrev he
  obtain rfl : e = d := Fin.ext (hdigit'.symm.trans hdigit)
  exact he

end

/-! ### Encoder outputs -/

/-- The symbols that ENC.BLK k writes to lanes 0..j-1 from the state `u` are those that `s` holds there (R178). -/
def EncodesTo (k : BitVec 8) (j : Nat) (u s : State) : Prop :=
  ∃ t, exec (.encBlk k) u = .next t ∧ ∀ p : Fin 11, p.val < j → t.sym[p] = s.sym[p]

theorem encodesTo_iff_afterEncBlk {k : BitVec 8} {j : Nat} {u s : State} (hk : k.toNat ≤ 8) :
    EncodesTo k j u s ↔ ∀ p : Fin 11, p.val < j → (u.afterEncBlk k.toNat).sym[p] = s.sym[p] := by
  refine ⟨fun ⟨t, ht, hsym⟩ => ?_, fun h => ⟨_, exec_encBlk hk u, h⟩⟩
  cases (exec_encBlk hk u).symm.trans ht
  exact hsym

section
variable {k : BitVec 8} {j : Nat} (hk : k.toNat ≤ 8) (hj : j = encLen k.toNat) {s : State}
include hk hj

/-- A string is a block's encoding exactly when it is made of valid symbols and has the block's value: the digits of a value
are unique (R173, R178). -/
theorem encodesTo_iff {u : State} (hf : ValidAlphabet u.fwd) (hrev : ReverseOf u.fwd s.rev) :
    EncodesTo k j u s ↔ (∀ i < j, LaneValid i s) ∧ symbolValue j s = blockValue k.toNat u := by
  have he : j ≤ 11 := hj ▸ encLen_strictMono.monotone hk
  have hfits : blockValue k.toNat u < 62 ^ j := hj ▸ (blockValue_lt u hk).trans_le (pow_le_pow_encLen hk)
  have hlane (p : Fin 11) (hp : p.val < j) : (u.afterEncBlk k.toNat).sym[p] = s.sym[p] ↔
      LaneValid p s ∧ laneDigit p s = blockValue k.toNat u / 62 ^ (j - 1 - p.val) % 62 := by
    subst hj
    rw [afterEncBlk_sym_of_lt u p hp, eq_comm, sym_eq_laneOf_iff hf hrev]
    rfl
  have hvalue (hvalid : ∀ i < j, LaneValid i s) := symbolValue_eq_iff (v := blockValue k.toNat u)
    (fun i hi => laneDigit_lt_of_laneValid hf hrev (hvalid i hi)) hfits
  rw [encodesTo_iff_afterEncBlk hk]
  constructor
  · intro h
    have hshown (i : Nat) (hi : i < j) := (hlane ⟨i, hi.trans_le he⟩ hi).1 (h _ hi)
    have hvalid : ∀ i < j, LaneValid i s := fun i hi => (hshown i hi).1
    exact ⟨hvalid, (hvalue hvalid).2 fun i hi => (hshown i hi).2⟩
  · rintro ⟨hvalid, hsame⟩ p hp
    exact (hlane p hp).2 ⟨hvalid p hp, (hvalue hvalid).1 hsame p hp⟩

/-- The encoder's outputs are the strings of valid symbols whose value fits: such a string encodes the block that it decodes
to (R178). -/
theorem exists_encodesTo_iff (hinv : s.AlphabetInv) :
    (∃ block, EncodesTo k j { s with dbuf := block } s) ↔
      (∀ i < j, LaneValid i s) ∧ symbolValue j s < 256 ^ k.toNat := by
  have hencodes (block : Vector Byte 8) := encodesTo_iff hk hj (u := { s with dbuf := block }) hinv.1 hinv.2
  constructor
  · rintro ⟨block, h⟩
    obtain ⟨hvalid, hvalue⟩ := (hencodes block).1 h
    exact ⟨hvalid, hvalue ▸ blockValue_lt _ hk⟩
  · rintro ⟨hvalid, hfits⟩
    exact ⟨_, (hencodes _).2 ⟨hvalid, (blockValue_afterDecBlk s hk hfits).symm⟩⟩

end

/-! ### The statements -/

/-- Settles O50: the state after the command says it byte by byte. -/
theorem decBlkWritesTheBytesOfTheValue : Obligations.DecBlkWritesTheBytesOfTheValue :=
  fun _ b s hb hj hvalid h => ⟨_, exec_decBlk_writes hb hj hvalid h, rfl, afterDecBlk_dbuf b _ s⟩

/-- Settles O51: the truncation policy gives NONCANON. -/
theorem strictDecodeFailsWithNonCanon : Obligations.StrictDecodeFailsWithNonCanon :=
  fun _ _ _ hb hj hvalid h hstrict => exec_decBlk_nonCanon hb hj hvalid h hstrict

/-- Settles O53: the decoder's loop stops at the first lane that is not valid. -/
theorem decBlkReportsTheFirstBadSymbol : Obligations.DecBlkReportsTheFirstBadSymbol :=
  fun _ _ _ _ hb hj hi hgood hbad => exec_decBlk_of_first_invalid hb hj hi hgood hbad

/-- Settles O52: 1, 4 and 8 are remainders that no encoded length leaves, and the length is checked before the lanes. -/
theorem decBlkRejectsInvalidLengths : Obligations.DecBlkRejectsInvalidLengths := by
  intro j s hj
  have hcount : j.toNat = 1 ∨ j.toNat = 4 ∨ j.toNat = 8 := by
    obtain rfl | rfl | rfl := hj <;> decide
  have hlength : byteLenChecked (countWord j) = raise .lenInvalid 0 := by
    have hword : (countWord j).toNat = j.toNat := countWord_toNat j
    refine byteLenChecked_of_ne_encLen (by omega) fun b hb => ?_
    have hmod := encLen_mod_eleven b
    omega
  exact exec_of_outcome_raise (outcomeOf_decBlk_of_length_error (by omega) hlength s)

/-- Settles O54: the symbols spell the block's value, which fits the block's bytes. -/
theorem decodeOfEncodedBlockGivesTheBlockBack : Obligations.DecodeOfEncodedBlockGivesTheBlockBack := by
  intro k j s t u hinv hk hj ht hrev hsym
  have hencodes : EncodesTo k j.toNat s u := ⟨t, ht, fun p hp => (hsym p hp).symm⟩
  cases (exec_encBlk hk s).symm.trans ht
  obtain ⟨hvalid, hvalue⟩ := (encodesTo_iff hk hj hinv.1 (hrev ▸ hinv.2)).1 hencodes
  have hlt := blockValue_lt s hk
  have hdec := exec_decBlk_writes hk hj hvalid (.inl (hvalue ▸ hlt))
  rw [hvalue] at hdec
  refine ⟨_, hdec, rfl, decide_eq_false (not_le.2 hlt), Nat.mod_eq_of_lt (by omega), fun i => ?_⟩
  rw [afterDecBlk_dbuf, Nat.mod_eq_of_lt hlt]
  split_ifs with hi
  · exact (dbuf_getElem_eq_ofNat s hk i hi).symm
  · rfl

/-- Settles O55: each of its four parts speaks of the strings of valid symbols whose value fits. -/
theorem strictDecodeAcceptsExactlyEncoderOutputs : Obligations.StrictDecodeAcceptsExactlyEncoderOutputs := by
  intro j k s hinv hk hj encodes
  have houtputs : (∃ block, encodes block) ↔
      (∀ i < j.toNat, LaneValid i s) ∧ symbolValue j.toNat s < 256 ^ k.toNat := exists_encodesTo_iff hk hj hinv
  have hvalue {block : Vector Byte 8} (h : encodes block) :
      symbolValue j.toNat s = blockValue k.toNat { s with dbuf := block } :=
    ((encodesTo_iff hk hj (u := { s with dbuf := block }) hinv.1 hinv.2).1 h).2
  have hdec := exec_decBlk_writes hk hj (s := s)
  rw [houtputs]
  refine ⟨⟨?_, ?_⟩, fun block block' h h' => ?_, fun hvalid hno => ?_, fun hstrict => ⟨?_, ?_⟩⟩
  · rintro ⟨t, ht, hok, htrunc⟩
    obtain ⟨hvalid, hfits⟩ := exec_decBlk_ok hk hj ht hok
    cases (hdec hvalid hfits).symm.trans ht
    exact ⟨hvalid, not_le.1 (of_decide_eq_false htrunc)⟩
  · rintro ⟨hvalid, hfits⟩
    exact ⟨_, hdec hvalid (.inl hfits), rfl, decide_eq_false (not_le.2 hfits)⟩
  · exact dbuf_getElem?_eq_of_blockValue_eq hk ((hvalue h).symm.trans (hvalue h'))
  · exact exec_decBlk_trunc hk hj hvalid (not_lt.1 fun hfits => hno ⟨hvalid, hfits⟩)
  · rintro ⟨t, ht, hok⟩
    obtain ⟨hvalid, hfits⟩ := exec_decBlk_ok hk hj ht hok
    exact ⟨hvalid, hfits.resolve_right (by simp [hstrict])⟩
  · rintro ⟨hvalid, hfits⟩
    exact ⟨_, hdec hvalid (.inl hfits), rfl⟩

end Sys2Proof.Machine

/-! The lifecycle of a command (44_control.md R190 to R194): accept, the block's turn, what every commit ends and keeps, and that
the host accesses taken before the completion do not change what it commits. -/

namespace Sys2Proof.Machine

/-! ### The block's turn -/

/-- While a command is in flight, the block's turn completes it, whether the turn is listed or no turn is waiting (R192). -/
theorem step_inFlight {s : State} (h : s.InFlight) :
    (s.agenda = [] → step s = complete s) ∧
      ∀ rest, s.agenda = .block :: rest → step s = complete { s with agenda := rest } := by
  obtain ⟨hbusy, hline⟩ := h
  refine ⟨fun ha => ?_, fun rest ha => ?_⟩
  · simp [step, nextTurn, ha, blockTurn, hbusy, hline]
  · simp [step_of_agenda ha, takeTurn, blockTurn, hbusy, hline]

/-- While no command is in flight, the block's turn does nothing (R212). -/
theorem step_idle {s : State} (h : s.Idle) :
    (s.agenda = [] → step s = .next s) ∧
      ∀ rest, s.agenda = .block :: rest → step s = .next { s with agenda := rest } := by
  obtain ⟨hidle, hline⟩ := h
  refine ⟨fun ha => ?_, fun rest ha => ?_⟩
  · simp [step, nextTurn, ha, blockTurn, hidle, hline]
  · simp [step_of_agenda ha, takeTurn, blockTurn, hidle, hline]

theorem complete_of_decode_ok {s : State} {i : Instr} (h : decode s.pend = .ok i) : complete s = exec i s := by
  simp only [complete, h]

/-- The completion of a word that is no command (R194). -/
theorem complete_of_decode_error {s : State} {why : Illegal} (h : decode s.pend = .error why) :
    complete s = .next (s.afterCommit 0 .illegal 0 false) := by
  simp only [complete, h, illegalOutcome, commit_raise]

/-- Settles O8: the block's turn completes the word in flight, and completing a decoded word is executing it. -/
theorem stepRunsTheDecodedCommand : Obligations.StepRunsTheDecodedCommand := by
  refine ⟨fun s i hfly hdec => ?_, fun s hidle => step_idle hidle⟩
  obtain ⟨hnil, hblock⟩ := step_inFlight hfly
  exact ⟨fun ha => (hnil ha).trans (complete_of_decode_ok hdec),
    fun rest ha => (hblock rest ha).trans (complete_of_decode_ok hdec)⟩

/-- Settles O10: the same turn, for a word that does not decode. -/
theorem illegalWordCommitsIllegal : Obligations.IllegalWordCommitsIllegal := by
  intro s why hfly hdec
  obtain ⟨hnil, hblock⟩ := step_inFlight hfly
  exact ⟨fun ha => (hnil ha).trans (complete_of_decode_error hdec),
    fun rest ha => (hblock rest ha).trans (complete_of_decode_error hdec)⟩

/-! ### Accept -/

/-- Settles O9: while idle a write to CMD is an accept; while busy it is dropped, which sets WERR only. -/
theorem acceptSetsPendBusyAndDoneOnly : Obligations.AcceptSetsPendBusyAndDoneOnly := by
  intro s addr w rest hline ho ha
  have hstep := windowStep_write hline (by decide) ho ha
  refine ⟨fun hidle => ⟨_, hstep, ?_⟩, fun hbusy => ⟨_, hstep, ?_⟩⟩
  · rw [memWrite_cmd_idle (s := { s with agenda := rest }) hidle]
    exact ⟨rfl, rfl, rfl, rfl, rfl, rfl, rfl, rfl, rfl, rfl, rfl⟩
  · rw [memWrite_input_busy (s := { s with agenda := rest }) hbusy (by decide)]
    exact ⟨rfl, hbusy, rfl⟩

/-! ### Commit -/

/-- Settles O11: every command commits an outcome, and no outcome decides these fields. -/
theorem everyCommitEndsTheFlight : Obligations.EveryCommitEndsTheFlight := fun i s =>
  ⟨commit (outcomeOf i s) s, exec_eq_commit i s, commit_busy _ s, commit_done _ s, commit_lastop _ s, commit_werr _ s,
    commit_ctrl _ s, commit_operand _ s, commit_stage _ s, commit_pend _ s, commit_agenda _ s, commit_resp _ s,
    commit_resetLine _ s⟩

/-- Settles O34: the outcome of NOP writes no buffer and no table. -/
theorem nopCommitsOkAndZero : Obligations.NopCommitsOkAndZero := fun _ => exec_of_outcome_nothing rfl

/-! ### The schedule of a completion -/

/-- What the completion of the word in PEND commits: the outcome of its command, or the ILLEGAL outcome (R192, R194). -/
def completionOutcome (s : State) : Except CmdError Success :=
  match decode s.pend with
  | .ok i => outcomeOf i s
  | .error _ => illegalOutcome

theorem complete_eq_commit_completionOutcome (s : State) : complete s = .next (commit (completionOutcome s) s) := by
  unfold completionOutcome
  cases hdec : decode s.pend with
  | ok i => exact (complete_of_decode_ok hdec).trans (exec_eq_commit i s)
  | error why => rw [complete_of_decode_error hdec, illegalOutcome, commit_raise]

/-- `t` is `s` but for STATUS, the turns to come, the last answer and the free-value counter. -/
def AgreesButForStatus (s t : State) : Prop :=
  ∃ st turns r n, t = { s with status := st, agenda := turns, resp := r, freeCount := n }

/-- No command reads STATUS (R83). -/
theorem outcomeOf_congr {s t : State} (h : AgreesButForStatus s t) (i : Instr) : outcomeOf i t = outcomeOf i s := by
  obtain ⟨st, turns, r, n, rfl⟩ := h
  cases i <;> rfl

theorem completionOutcome_congr {s t : State} (h : AgreesButForStatus s t) :
    completionOutcome t = completionOutcome s := by
  have hpend : t.pend = s.pend := by obtain ⟨st, turns, r, n, rfl⟩ := h; rfl
  simp only [completionOutcome, hpend, outcomeOf_congr h]

/-- A commit overwrites every bit of STATUS but WERR, so what stood there does not matter (R193). -/
theorem commit_sameOutcome {s t : State} (h : AgreesButForStatus s t) (o : Except CmdError Success) :
    SameOutcome (commit o t) (commit o s) := by
  obtain ⟨st, turns, r, n, rfl⟩ := h
  rcases o with e | ⟨w, res, tr⟩
  · exact ⟨rfl, rfl, rfl, rfl, rfl, rfl, rfl, rfl, rfl, rfl, rfl⟩
  · cases w <;> exact ⟨rfl, rfl, rfl, rfl, rfl, rfl, rfl, rfl, rfl, rfl, rfl⟩

theorem complete_sameOutcome {s t : State} (h : AgreesButForStatus s t) :
    ∃ t' s', complete t = .next t' ∧ complete s = .next s' ∧ SameOutcome t' s' := by
  refine ⟨_, _, complete_eq_commit_completionOutcome t, complete_eq_commit_completionOutcome s, ?_⟩
  rw [completionOutcome_congr h]
  exact commit_sameOutcome h _

/-- Host accesses before the block's turn leave the command in flight, and all that its completion reads. -/
theorem runSteps_accesses {s : State} {accesses : List Turn} (h : s.InFlight) (ha : ∀ a ∈ accesses, a.isAccess = true) :
    ∃ t, runSteps (accesses.length + 1) { s with agenda := accesses ++ [.block] } = runSteps 1 t ∧ t.InFlight ∧
      t.agenda = [.block] ∧ AgreesButForStatus { s with agenda := [] } { t with agenda := [] } := by
  obtain ⟨hbusy, hline⟩ := h
  obtain ⟨d, w, r, n, hrun, -⟩ :=
    accesses_inFlight accesses [.block] { s with agenda := accesses ++ [.block] } hbusy hline ha rfl 1
  exact ⟨_, hrun, ⟨hbusy, hline⟩, rfl, _, _, _, _, rfl⟩

/-- Settles O14: the accesses leave everything a command reads, and the commit overwrites what they change, WERR aside. -/
theorem outcomeIsIndependentOfTheSchedule : Obligations.OutcomeIsIndependentOfTheSchedule := by
  intro s accesses hfly haccess
  obtain ⟨late, hrun, hlate, hagenda, hagree⟩ := runSteps_accesses hfly haccess
  obtain ⟨t, u, ht, hu, hsame⟩ := complete_sameOutcome hagree
  have hfly' : State.InFlight { s with agenda := [] } := hfly
  have hstepLate : step late = .next t := ((step_inFlight hlate).2 [] hagenda).trans ht
  have hstepNow : step { s with agenda := [] } = .next u := ((step_inFlight hfly').1 rfl).trans hu
  exact ⟨t, u, hrun.trans (runSteps_next hstepLate 0), runSteps_next hstepNow 0, hsame⟩

end Sys2Proof.Machine

/-! Precise errors (60_exceptions.md R203): what a commit with an error code leaves as it was. -/

namespace Sys2Proof.Machine

/-- The commit of an error, through the STATUS fields it leaves (R193, R203). -/
theorem commit_error_eq_afterCommit (e : CmdError) (s : State) :
    commit (.error e) s = s.afterCommit 0 e.code e.idx.toNat e.trunc := by
  have hidx : BitVec.ofNat 8 e.idx.toNat = e.idx := by simp
  rw [commit_error, committed_eq, State.afterCommit, hidx]

/-- A success commits ECODE = OK, so any other code comes from an error, which writes no buffer and no table. -/
theorem commit_eq_afterCommit_of_ecode_ne_ok {o : Except CmdError Success} {s : State}
    (h : (commit o s).status.ecode ≠ .ok) :
    commit o s = s.afterCommit 0 (commit o s).status.ecode (commit o s).status.eidx.toNat (commit o s).status.trunc := by
  cases o with
  | ok r =>
    have hok : (commit (.ok r) s).status.ecode = .ok := by rw [commit_ok, Status.committed]
    exact absurd hok h
  | error e => exact commit_error_eq_afterCommit e s

/-- Settles O12: every command commits an outcome, and only the commit of an error leaves a code other than OK. -/
theorem failedCommandChangesNoBufferAndNoTable : Obligations.FailedCommandChangesNoBufferAndNoTable := by
  intro i s t hexec hcode
  cases (exec_eq_commit i s).symm.trans hexec
  exact commit_eq_afterCommit_of_ecode_ne_ok hcode

end Sys2Proof.Machine

/-! Reset and hazards (70_reset_and_hazards.md R230 to R232, R240, R241): what the reset input does, what a host access finds
while it is asserted, and what a host access finds while a command is in flight. -/

namespace Sys2Proof.Machine

/-! ### The reset input -/

/-- While reset is asserted, the block's turn writes the reset values, whether the turn is listed or no turn is waiting
(R230). -/
theorem step_inReset {s : State} {rest : List Turn} (hline : s.resetLine = true)
    (ha : (s.agenda = [] ∧ rest = []) ∨ s.agenda = .block :: rest) :
    step s = .next { State.reset with resetLine := true, agenda := rest, resp := s.resp, freeCount := s.freeCount } := by
  obtain ⟨ha, rfl⟩ | ha := ha
  · simp [step, nextTurn, ha, blockTurn, hline, resetBlock]
  · simp [step_of_agenda ha, takeTurn, blockTurn, hline, resetBlock]

/-- Settles O2: the turns of the reset input and of the block under reset. -/
theorem assertedResetLoadsTheResetState : Obligations.AssertedResetLoadsTheResetState := fun _ _ =>
  ⟨step_assertReset, step_inReset, step_of_agenda⟩

/-! ### Host accesses while reset is asserted -/

/-- What R61 and R63 fix of the error bit of an answer: set for another size or alignment, clear for a word at a reserved
offset. -/
def ErrorBitFits (size off : Nat) (e : Bool) : Prop :=
  (size ≠ 4 ∨ off % 4 ≠ 0 → e = true) ∧ (size = 4 → off % 4 = 0 → ReservedOffset off → e = false)

/-- `t` is `s` after an access that had no effect: only the answer and the free-value counter may differ, and inside the
window the answer's error bit is as R61 and R63 fix it. -/
def AnsweredWithoutEffect (addr : BusAddr) (size : Nat) (answer : Bool → BusResp) (s t : State) : Prop :=
  ∃ r n, t = { s with resp := r, freeCount := n } ∧
    ∀ off, addr.offset? = some off → ∃ e, r = some (answer e) ∧ ErrorBitFits size off e

/-- The bus decides alike for reads and writes: by the window, then by size and alignment, then by the reset input (R60, R63,
R230). -/
theorem answeredWithoutEffect_of_cases {addr : BusAddr} {size : Nat} {answer : Bool → BusResp} {s t : State}
    (houtside : addr.offset? = none → t = { s with resp := none })
    (hunsupported : ∀ a, addr.offset? = some a → size ≠ 4 ∨ a % 4 ≠ 0 → t = { s with resp := some (answer true) })
    (hword : ∀ a, addr.offset? = some a → size = 4 → a % 4 = 0 → t = answerInReset a answer s) :
    AnsweredWithoutEffect addr size answer s t := by
  cases ho : addr.offset? with
  | none => exact ⟨none, s.freeCount, houtside ho, by simp [ho]⟩
  | some a =>
    by_cases hbad : size ≠ 4 ∨ a % 4 ≠ 0
    · refine ⟨_, s.freeCount, hunsupported a ho hbad, fun off hoff => ?_⟩
      cases ho.symm.trans hoff
      exact ⟨true, rfl, fun _ => rfl, fun hsize halign => (hbad.elim (· hsize) (· halign)).elim⟩
    · obtain ⟨hsize, halign⟩ : size = 4 ∧ a % 4 = 0 := by omega
      obtain ⟨e, n, heq, hreserved⟩ := answerInReset_eq a answer s
      refine ⟨_, n, (hword a ho hsize halign).trans heq, fun off hoff => ?_⟩
      cases ho.symm.trans hoff
      exact ⟨e, rfl, fun h => absurd h hbad, fun _ _ hoffset => (hreserved (regAt_reserved hoffset)).1⟩

section
variable {s : State} (hline : s.resetLine = true)
include hline

theorem hostRead_inReset (addr : BusAddr) (size : Nat) :
    AnsweredWithoutEffect addr size (.read · 0) s (hostRead addr size s) :=
  answeredWithoutEffect_of_cases (hostRead_outside · size s) (fun _ ho hbad => hostRead_unsupported ho hbad s)
    fun a ho hsize halign => by simp [hostRead, ho, accepted, hsize, halign, hline]

theorem hostWrite_inReset (addr : BusAddr) (size : Nat) (v : Word) :
    AnsweredWithoutEffect addr size .write s (hostWrite addr size v s) :=
  answeredWithoutEffect_of_cases (hostWrite_outside · size v s) (fun _ ho hbad => hostWrite_unsupported ho hbad v s)
    fun a ho hsize halign => by simp [hostWrite, ho, accepted, hsize, halign, hline]

end

theorem sameBlock_of_answer (s : State) (turns : List Turn) (r : Option BusResp) (n : Nat) :
    SameBlock s { s with agenda := turns, resp := r, freeCount := n } :=
  ⟨rfl, rfl, rfl, rfl, rfl, rfl, rfl, rfl, rfl, rfl, rfl⟩

/-- Settles O3, for a read and for a write. -/
theorem accessesDuringResetHaveNoEffect : Obligations.AccessesDuringResetHaveNoEffect := by
  intro s a rest hline haccess ha
  cases a with
  | hostRead addr size =>
    obtain ⟨r, n, heq, hanswer⟩ := hostRead_inReset (s := { s with agenda := rest }) hline addr size
    refine ⟨_, (step_of_agenda ha).trans (congrArg Host.Outcome.next heq), sameBlock_of_answer s rest r n, rfl,
      fun _ _ off ho => ⟨fun h => ?_, nofun⟩⟩
    cases h
    exact hanswer off ho
  | hostWrite addr size v =>
    obtain ⟨r, n, heq, hanswer⟩ := hostWrite_inReset (s := { s with agenda := rest }) hline addr size v
    refine ⟨_, (step_of_agenda ha).trans (congrArg Host.Outcome.next heq), sameBlock_of_answer s rest r n, rfl,
      fun _ _ off ho => ⟨nofun, fun _ h => ?_⟩⟩
    cases h
    exact hanswer off ho
  | assertReset => cases haccess
  | releaseReset => cases haccess
  | block => cases haccess

/-! ### Host accesses while a command is in flight -/

/-- Settles O22: the write is dropped, which sets WERR only. -/
theorem busyDropsInputWritesAndSetsWerr : Obligations.BusyDropsInputWritesAndSetsWerr := by
  intro s addr a v rest ⟨hbusy, hline⟩ hinput ho ha
  rw [windowStep_write hline hinput.1 ho ha, memWrite_input_busy (s := { s with agenda := rest }) hbusy hinput]
  rfl

/-- No word of the window but STATUS shows STATUS or PEND, nor what is not the block's (R61). -/
theorem memRead_of_ne_status {a : Nat} (ha : a ≠ 0x00C) (s : State) (st : Status) (w : Word) (turns : List Turn)
    (r : Option BusResp) (n : Nat) :
    memRead a { s with status := st, pend := w, agenda := turns, resp := r, freeCount := n } = memRead a s := by
  unfold memRead
  cases hr : regAt a with
  | status => exact absurd (regAt_status hr) ha
  | _ => rfl

/-- A CMD write while idle, then any number of host accesses: STATUS, PEND and what is not the block's are all that differ, and
of STATUS only BUSY, DONE and WERR do (R190, R241). -/
theorem runSteps_accept_accesses {s : State} {w : Word} {accesses : List Turn} (h : s.Idle)
    (haccess : ∀ a ∈ accesses, a.isAccess = true) :
    ∃ e r n, runSteps (accesses.length + 1) { s with agenda := .hostWrite (.window 0x008) 4 w :: accesses } =
      some { s with
        status := { s.status with busy := true, done := false, werr := e }
        pend := w
        agenda := []
        resp := r
        freeCount := n } := by
  obtain ⟨hidle, hline⟩ := h
  have haccept := windowStep_write (s := { s with agenda := .hostWrite (.window 0x008) 4 w :: accesses })
    (a := 0x008) hline (by decide) (by decide) rfl
  rw [memWrite_cmd_idle (s := { s with agenda := accesses }) hidle] at haccept
  obtain ⟨d, e, r, n, hrun, hdone⟩ := accesses_inFlight accesses []
    { accept w { s with agenda := accesses } with resp := some (.write false) } rfl hline haccess
    (List.append_nil accesses).symm 0
  obtain rfl := hdone rfl
  exact ⟨e, r, n, (runSteps_next haccept _).trans hrun⟩

/-- Settles O26: the run leaves the registers that the other words show. -/
theorem readsWhileBusyReturnTheStateAtAccept : Obligations.ReadsWhileBusyReturnTheStateAtAccept := by
  intro s w accesses hidle haccess
  obtain ⟨e, r, n, hrun⟩ := runSteps_accept_accesses hidle haccess
  exact ⟨_, hrun, fun _ _ ha => memRead_of_ne_status ha s _ w [] r n, rfl, rfl⟩

end Sys2Proof.Machine
